-- ==== Sys2Proof/Word.lean ====
section
/-! DEFINITION. The word types of NPX and their plainest arithmetic (00_scope.md R11). -/

namespace Sys2Proof

/-- A pulse byte, a status code, the data field of an event word. -/
abbrev Byte := BitVec 8

/-- A word of the command port, a COUNT, a value of TIMER (R9, R57). -/
abbrev Word := BitVec 32

/-- A colour: Green in bits 23:16, Red in 15:8, Blue in 7:0 (20_memory.md R41). -/
abbrev Color := BitVec 24

/-- `sint32(w)`: a 32-bit word read as two's complement (R11). -/
abbrev sint32 (w : Word) : Int := w.toInt

end Sys2Proof
end

