-- ==== Sys2Proof/Syntax.lean ====
section
/-! DEFINITION. The operations of NPX: one constructor of `Instr` per row of spec/opcode_table.json, the two ways
they are offered (host commands R59, internal steps R67), and the agents that take them (00_scope.md R5). -/

namespace Sys2Proof

/-- One operation of NPX. `update` carries the operands of R62 (`none` is the null colour operand); `fgReturn` and
`dmaSend` carry the data field of their event word (R67), every other event word has the data field 0. -/
inductive Instr where
  /-- INIT (R83). -/
  | init
  /-- UPDATE (R84). -/
  | update (colors : Option (List Color)) (count : Word)
  /-- FG_CHECK (R85). -/
  | fgCheck
  /-- FG_DRAIN (R89). -/
  | fgDrain
  /-- FG_PREPARE (R90). -/
  | fgPrepare
  /-- FG_ENCODE (R78). -/
  | fgEncode
  /-- FG_GAPWAIT (R91). -/
  | fgGapwait
  /-- FG_ARM (R92). -/
  | fgArm
  /-- FG_RETURN (R86); `data` is the status code its event word records. -/
  | fgReturn (data : Byte)
  /-- DMA_SEND (R95); `data` is the byte its event word records. -/
  | dmaSend (data : Byte)
  /-- DMA_COMPLETE (R96). -/
  | dmaComplete
  /-- IRQ_COMPLETION (R106). -/
  | irqCompletion
  /-- TIMER_TICK (R99). -/
  | timerTick
deriving DecidableEq, Repr, Inhabited

/-- A host command, the term of R64. -/
inductive HostCmd where
  | init
  | update (colors : Option (List Color)) (count : Word)
deriving DecidableEq, Repr, Inhabited

def HostCmd.toInstr : HostCmd → Instr
  | .init => .init
  | .update colors count => .update colors count

/-- An internal step, as an event word names it (R67). -/
inductive Event where
  | fgCheck | fgDrain | fgPrepare | fgEncode | fgGapwait | fgArm
  | fgReturn (data : Byte)
  | dmaSend (data : Byte)
  | dmaComplete | irqCompletion | timerTick
deriving DecidableEq, Repr, Inhabited

def Event.toInstr : Event → Instr
  | .fgCheck => .fgCheck
  | .fgDrain => .fgDrain
  | .fgPrepare => .fgPrepare
  | .fgEncode => .fgEncode
  | .fgGapwait => .fgGapwait
  | .fgArm => .fgArm
  | .fgReturn data => .fgReturn data
  | .dmaSend data => .dmaSend data
  | .dmaComplete => .dmaComplete
  | .irqCompletion => .irqCompletion
  | .timerTick => .timerTick

/-- The five agents (R5). -/
inductive Agent where
  | host | fg | dma | irq | timer
deriving DecidableEq, Repr, Inhabited

/-- Whose step an operation is (R5, R67). -/
def Instr.agent : Instr → Agent
  | .init => .host
  | .update _ _ => .host
  | .fgCheck => .fg
  | .fgDrain => .fg
  | .fgPrepare => .fg
  | .fgEncode => .fg
  | .fgGapwait => .fg
  | .fgArm => .fg
  | .fgReturn _ => .fg
  | .dmaSend _ => .dma
  | .dmaComplete => .dma
  | .irqCompletion => .irq
  | .timerTick => .timer

/-- One choice of the scheduler: HOST issues its next command (R29), or an internal step is offered its turn.
DESIGN CHOICE (log 1, safe): the spec lets any enabled step be taken (R109); the model reads the choice from data. -/
inductive Turn where
  | host
  | internal (e : Event)
deriving DecidableEq, Repr, Inhabited

/-- Why a word sequence, a term or a text has no meaning (60_exceptions.md R104). -/
inductive DecodeRefusal where
  /-- The operation code is reserved. -/
  | reservedOp
  /-- A reserved bit is set. -/
  | reservedBits
  /-- The word sequence ends inside a transaction. -/
  | truncated
  /-- A term's or text's colour list does not match its count. -/
  | malformed
deriving DecidableEq, Repr, Inhabited

/-- The host's program, as words (R57), as terms (R64) or as text (R69). -/
inductive HostInput where
  | words (ws : List Word)
  | terms (cs : List HostCmd)
  | text (src : List Char)
deriving DecidableEq, Repr, Inhabited

end Sys2Proof
end

