-- ==== Sys2Proof/WellFormed.lean ====
section
/-! DEFINITION. Well-formedness of a command term (30_encoding.md R64): the colour list matches the count. -/

namespace Sys2Proof

/-- R64: the colours are null; or the count is at least 1 and there are exactly that many colours; or the count is
at most 0 and there is no colour. -/
def operandsWellFormed (colors : Option (List Color)) (count : Word) : Bool :=
  match colors with
  | none => true
  | some cs => if 1 ≤ sint32 count then decide ((cs.length : Int) = sint32 count) else cs.isEmpty

def HostCmd.wellFormed : HostCmd → Bool
  | .init => true
  | .update colors count => operandsWellFormed colors count

/-- An event word carries at most one data byte, and every value of it can be written: only UPDATE has a check. -/
def Instr.wellFormed : Instr → Bool
  | .update colors count => operandsWellFormed colors count
  | .init => true
  | .fgCheck => true
  | .fgDrain => true
  | .fgPrepare => true
  | .fgEncode => true
  | .fgGapwait => true
  | .fgArm => true
  | .fgReturn _ => true
  | .dmaSend _ => true
  | .dmaComplete => true
  | .irqCompletion => true
  | .timerTick => true

end Sys2Proof
end

