-- ==== Sys2Proof/Decode.lean ====
section
/-! DEFINITION. The decoder of 30_encoding.md (formats HC R58, CW R61, EV R67; operand assembly R62; decoder R65),
total on any words and refusing by name, and after it the encoder, written from the same tables. -/

namespace Sys2Proof

/-! ## Fields -/

/-- `OP`, bits 31:24 of a command word or the code of an event word (R58, R67). -/
def opOf (w : Word) : Byte := w.extractLsb' 24 8

/-- `RSVD`, bits 23:1 of a command word (R58). -/
def rsvdOf (w : Word) : BitVec 23 := w.extractLsb' 1 23

/-- `CNULL`, bit 0 of a command word (R58). -/
def cnullOf (w : Word) : Bool := w.getLsbD 0

/-- Bits 23:0: the colour of a colour word (R61), and INIT's RSVD and CNULL together (R65). -/
def colorOf (w : Word) : Color := w.extractLsb' 0 24

/-- Bits 23:8 of an event word, which are 0 (R67). -/
def eventZerosOf (w : Word) : BitVec 16 := w.extractLsb' 8 16

/-- The data field of an event word, bits 7:0 (R67). -/
def eventDataOf (w : Word) : Byte := w.extractLsb' 0 8

/-- `k` of R62: how many colour words follow the COUNT word. -/
def colourWords (cnull : Bool) (count : Word) : Nat :=
  if cnull = false ∧ 1 ≤ sint32 count then (sint32 count).toNat else 0

/-! ## The decoder of the command port -/

/-- One turn of the loop of R65: the command a word sequence begins with, and the words after it. -/
def decodeCommand : List Word → Except DecodeRefusal (HostCmd × List Word)
  | [] => .error .truncated
  | w0 :: ws =>
    if opOf w0 = 0x01 then
      if colorOf w0 = 0 then .ok (.init, ws) else .error .reservedBits
    else if opOf w0 = 0x02 then
      if rsvdOf w0 = 0 then
        match ws with
        | [] => .error .truncated
        | w1 :: rest =>
          if rest.length < colourWords (cnullOf w0) w1 then .error .truncated
          else
            .ok (.update (if cnullOf w0 then none else some ((rest.take (colourWords (cnullOf w0) w1)).map colorOf)) w1,
              rest.drop (colourWords (cnullOf w0) w1))
      else .error .reservedBits
    else .error .reservedOp

/-- The loop of R65, on fuel: every command takes at least one word, so as much fuel as there are words is enough. -/
def decodeProgramFuel : Nat → List Word → Except DecodeRefusal (List HostCmd)
  | _, [] => .ok []
  | 0, _ :: _ => .error .truncated
  | fuel + 1, w :: ws =>
    match decodeCommand (w :: ws) with
    | .error r => .error r
    | .ok (c, rest) =>
      match decodeProgramFuel fuel rest with
      | .error r => .error r
      | .ok cs => .ok (c :: cs)

/-- `decode(ws)` of R65: the whole word sequence, or the first refusal. -/
def decodeProgram (ws : List Word) : Except DecodeRefusal (List HostCmd) :=
  decodeProgramFuel ws.length ws

/-! ## Event words -/

/-- The table of R67, read from the code. -/
def eventOfCode (code data : Byte) : Option Event :=
  if code = 0x80 then some .fgCheck
  else if code = 0x81 then some .fgDrain
  else if code = 0x82 then some .fgPrepare
  else if code = 0x83 then some .fgEncode
  else if code = 0x84 then some .fgGapwait
  else if code = 0x85 then some .fgArm
  else if code = 0x86 then some (.fgReturn data)
  else if code = 0x90 then some (.dmaSend data)
  else if code = 0x91 then some .dmaComplete
  else if code = 0xA0 then some .irqCompletion
  else if code = 0xB0 then some .timerTick
  else none

/-- The data field that an event's word holds: 0 but for FG_RETURN and DMA_SEND (R67). -/
def Event.data : Event → Byte
  | .fgReturn data => data
  | .dmaSend data => data
  | _ => 0

/-- An event word: a reserved code is refused, and so is a set bit that R67 says is 0. -/
def decodeEvent (w : Word) : Except DecodeRefusal Event :=
  match eventOfCode (opOf w) (eventDataOf w) with
  | none => .error .reservedOp
  | some e => if eventZerosOf w = 0 ∧ eventDataOf w = e.data then .ok e else .error .reservedBits

/-! ## Any row of the opcode table -/

/-- The codes 0x80 to 0xBF, which name internal steps and are never commands (R59). -/
def isEventCode (code : Byte) : Bool := code.toNat / 64 == 2

/-- The operation that a word sequence begins with, command or event, and the words after it. -/
def decode (ws : List Word) : Except DecodeRefusal (Instr × List Word) :=
  match ws with
  | [] => .error .truncated
  | w :: rest =>
    if isEventCode (opOf w) then
      match decodeEvent w with
      | .error r => .error r
      | .ok e => .ok (e.toInstr, rest)
    else
      match decodeCommand (w :: rest) with
      | .error r => .error r
      | .ok (c, rest) => .ok (c.toInstr, rest)

/-! ## The opcode table's numbering of bits -/

/-- The words of a table row's bits: bit 0 is the least significant bit of the first word. -/
def tableWords (nbits w : Nat) : List Word :=
  (List.range ((nbits + 31) / 32)).map fun i => BitVec.ofNat 32 (w % 2 ^ nbits / 2 ^ (32 * i))

/-- How many words the operation that begins with these words has (R59, R63). -/
def transactionWords : List Word → Nat
  | [] => 0
  | w0 :: ws =>
    if opOf w0 = 0x02 then 2 + colourWords (cnullOf w0) (ws.headD 0) else 1

/-- The words of a table row's bits, with operand words of zeros after them as far as the operation is long. -/
def paddedTableWords (nbits w : Nat) : List Word :=
  tableWords nbits w ++ List.replicate (transactionWords (tableWords nbits w) - (tableWords nbits w).length) 0

/-- What the decoder reads from an operation whose bits are `w`, numbered as the opcode table numbers them. -/
def decodeTableWord (nbits w : Nat) : Option Instr :=
  match decode (paddedTableWords nbits w) with
  | .error _ => none
  | .ok (i, _) => some i

/-! ## The encoder -/

/-- Format HC (R58). -/
def commandWord (op : Byte) (cnull : Bool) : Word := op ++ (0 : BitVec 23) ++ BitVec.ofBool cnull

/-- Format CW (R61), with the ignored bits 31:24 at 0. -/
def colorWord (c : Color) : Word := (0 : Byte) ++ c

/-- Format EV (R67). -/
def eventWord (code data : Byte) : Word := code ++ (0 : BitVec 16) ++ data

/-- The words of a host command (R59, R60). -/
def HostCmd.encode : HostCmd → List Word
  | .init => [commandWord 0x01 false]
  | .update none count => [commandWord 0x02 true, count]
  | .update (some cs) count => commandWord 0x02 false :: count :: cs.map colorWord

/-- The words of a host program, one command after another (R57). -/
def encodeProgram (cs : List HostCmd) : List Word := cs.flatMap HostCmd.encode

/-- The code of an internal step (R67). -/
def Event.code : Event → Byte
  | .fgCheck => 0x80
  | .fgDrain => 0x81
  | .fgPrepare => 0x82
  | .fgEncode => 0x83
  | .fgGapwait => 0x84
  | .fgArm => 0x85
  | .fgReturn _ => 0x86
  | .dmaSend _ => 0x90
  | .dmaComplete => 0x91
  | .irqCompletion => 0xA0
  | .timerTick => 0xB0

/-- The event word of an internal step (R67). -/
def Event.encode (e : Event) : Word := eventWord e.code e.data

/-- The words of an operation. -/
def encode : Instr → List Word
  | .init => HostCmd.init.encode
  | .update colors count => (HostCmd.update colors count).encode
  | .fgCheck => [Event.fgCheck.encode]
  | .fgDrain => [Event.fgDrain.encode]
  | .fgPrepare => [Event.fgPrepare.encode]
  | .fgEncode => [Event.fgEncode.encode]
  | .fgGapwait => [Event.fgGapwait.encode]
  | .fgArm => [Event.fgArm.encode]
  | .fgReturn data => [(Event.fgReturn data).encode]
  | .dmaSend data => [(Event.dmaSend data).encode]
  | .dmaComplete => [Event.dmaComplete.encode]
  | .irqCompletion => [Event.irqCompletion.encode]
  | .timerTick => [Event.timerTick.encode]

end Sys2Proof
end

