-- ==== Sys2Proof/Config.lean ====
section
/-! DEFINITION. What an implementation fixes (00_scope.md R9): the named constants with the values the spec gives, the
OPEN parameters as constants without a body, and the free values the spec says a model draws (10_state.md R35). -/

namespace Sys2Proof

/-- `BITS_PER_COLOR` (R9). -/
def Config.bitsPerColor : Nat := 24

/-- `BYTES_PER_PIXEL`: one pulse byte per colour bit (R9). -/
def Config.bytesPerPixel : Nat := 24

/-- `T_RESET_US`: the minimum reset interval, in microseconds (R9). -/
def Config.tResetUs : Nat := 70

/-- `PULSE_ZERO` (R9). -/
def Config.pulseZero : Byte := 0x80

/-- `PULSE_ONE` (R9). -/
def Config.pulseOne : Byte := 0xFE

/-- The largest `MAX_PIXELS` that R9 allows: 24 × MAX_PIXELS ≤ 2^31 − 1. -/
def Config.maxPixelsLimit : Nat := 89478485

/-- The OPEN parameter `MAX_PIXELS`, less one. No body: nothing can evaluate it (log 5, safe). -/
opaque Config.maxPixelsPred : Fin 89478485

/-- The OPEN parameter `MAX_PIXELS` of the reset state; R9's constraint holds by its type. -/
def Config.maxPixels : Nat := Config.maxPixelsPred.val + 1

/-- The OPEN parameter `BUF_BASE` (R9, D28; log 5, safe). -/
opaque Config.bufBase : Nat

/-- TX_DONE after reset: "any" (R35; log 6). -/
opaque Config.resetTxDone : Bool

/-- TIMER after reset: "any" (R35; log 6). -/
opaque Config.resetTimer : Word

/-- DMA_SRC after reset: "any" (R35; log 6). -/
opaque Config.resetDmaSrc : Nat

/-- BUF after reset: "any, per byte", by offset (R35; log 7). -/
opaque Config.resetByte : Nat → Byte

/-- The value INIT starts TIMER from: "any value" (R83, U16; log 8), by the draw's number. -/
opaque Config.freeTimer : Nat → Word

/-- Which turn is taken where the schedule names none (R109, U26; log 1), by the draw's number. -/
opaque Config.freeTurn : Nat → Turn

end Sys2Proof
end

