-- ==== Sys2Proof/Machine/State.lean ====
section
/-! DEFINITION. The state record of NPX (10_state.md R14), its parameters, the reasons a step can stop, and the state
after reset (R35, R117). -/

namespace Sys2Proof.Machine

/-- A fault reason (60_exceptions.md R103). A step that meets one answers a next state whose FAULT field holds it; every
step after that answers it as its outcome (R26; log 4, safe). -/
inductive Fault where
  /-- Raised by UPDATE issued before INIT, which the source calls undefined (R84). Safe: the spec's own treatment. -/
  | notReady
  /-- Raised by a Pulse Buffer access at an offset of BUF_LEN or more (20_memory.md R39). Safe; in no run. -/
  | bufRange
  /-- Raised by DMA_SEND while the line is disabled (43_dma_serial_timer.md R95). Safe; in no run. -/
  | lineDisabled
deriving DecidableEq, Repr, Inhabited

/-- A refusal reason (R104), and the model's own two. -/
inductive Refusal where
  /-- Raised by exec's arm of an operation without a meaning; no arm of this model is one. Safe. -/
  | notModelled (mnemonic : String)
  /-- Raised by the decoder: a reserved operation code (R65, R66). Safe: the spec's own treatment. -/
  | reservedOp
  /-- Raised by the decoder: a reserved bit is set (R65, R66). Safe: the spec's own treatment. -/
  | reservedBits
  /-- Raised by the decoder: the words end inside a transaction (R65). Safe: the spec's own treatment. -/
  | truncated
  /-- Raised by the check of terms and of text (R64, R69). Safe: the spec's own treatment. -/
  | malformed
  /-- Raised by INIT issued a second time (R83); the REFUSED field holds it. Safe: the spec's own treatment. -/
  | reinit
  /-- Raised by a controller step whose operand field holds none, or a value outside the operand's range, which no run
  reaches (log 10). Safe: the model stops where the spec gives no operand to read. -/
  | noOperand
deriving DecidableEq, Repr, Inhabited

/-- What the FAULT field holds: the reason and the index HPC of the command being served (R103). -/
structure FaultRecord where
  reason : Fault
  hpc : Nat
deriving DecidableEq, Repr, Inhabited

/-- PHASE, the controller's next step (R17). -/
inductive Phase where
  | nocall | check | drain | prepare | encode | gapwait | arm | return
deriving DecidableEq, Repr, Inhabited

/-- LINE, the output line's routing (R20). -/
inductive Line where
  | disabled | enabled
deriving DecidableEq, Repr, Inhabited

/-- A status code (R102). -/
inductive Status where
  | ok | invalidArgument | capacityExceeded
deriving DecidableEq, Repr, Inhabited

/-- One item of TRACE, the observation of the data line (R27). -/
inductive WireEvent where
  | disable
  | enable
  | byte (b : Byte)
  | tick
deriving DecidableEq, Repr, Inhabited

/-- The operands of the UPDATE in progress (R18): the colours (`none` is null) and the count word. -/
structure Operands where
  colors : Option (List Color)
  count : Word
deriving DecidableEq, Repr, Inhabited

/-- The OPEN parameters of R9, which the spec has a model take as arguments; no step writes them (log 5). -/
structure Params where
  maxPixels : Nat
  bufBase : Nat
deriving DecidableEq, Repr, Inhabited

/-- The bytes of the Pulse Buffer that have been written, by offset, addresses strictly rising (log 7). -/
abbrev Memory := List Host.Cell

/-- The fields 0 to 18 of R14 in its order, then the run's parameters and the model's own bookkeeping. -/
structure State where
  /-- 0: the initialization contract has run (R15). -/
  ready : Bool
  /-- 1: the transmission-complete flag (R16). -/
  txDone : Bool
  /-- 2: the controller's next step (R17). -/
  phase : Phase
  /-- 3: the operands of the UPDATE in progress (R18). -/
  cur : Option Operands
  /-- 4: the status the current call will return (R19). -/
  status : Option Status
  /-- 5: the output line's routing (R20). -/
  line : Line
  /-- 6: the microsecond counter (R21). -/
  timer : Word
  /-- 7: the peripheral-triggered DMA request is enabled (R22). -/
  dmaActive : Bool
  /-- 8: the DMA source descriptor (R22). -/
  dmaSrc : Nat
  /-- 9: the DMA transfer length in bytes (R22). -/
  dmaLen : Nat
  /-- 10: the bytes already moved (R22). -/
  dmaIdx : Nat
  /-- 11: the "transfer done" indicator, the pending completion interrupt (R23). -/
  xferDone : Bool
  /-- 12: the completion handler is registered (R24). -/
  irqEn : Bool
  /-- 13: the Pulse Buffer (R25). -/
  buf : Memory
  /-- 14: sticky fault (R26). -/
  fault : Option FaultRecord
  /-- 15: sticky refusal mark (R26). -/
  refused : Option Refusal
  /-- 16: the observation of the data line (R27). -/
  trace : List WireEvent
  /-- 17: the statuses returned to the host (R28). -/
  returns : List Status
  /-- 18: the index of the host's next command (R29). -/
  hpc : Nat
  /-- The OPEN parameters (R9). -/
  params : Params
  /-- HOSTWORDS, the host's program (R29, R57). -/
  hostInput : HostInput
  /-- The MODEL's own: the turns the scheduler takes next, the first first (log 1). -/
  sched : List Turn
  /-- The MODEL's own: how many free values have been drawn (log 8). -/
  draws : Nat
deriving DecidableEq, Repr

/-- The state after a hardware reset (R35, R117): R35's values, its "any" as the constants of Config, no program and no
schedule (log 2). -/
def State.reset : State where
  ready := false
  txDone := Config.resetTxDone
  phase := .nocall
  cur := none
  status := none
  line := .disabled
  timer := Config.resetTimer
  dmaActive := false
  dmaSrc := Config.resetDmaSrc
  dmaLen := 0
  dmaIdx := 0
  xferDone := false
  irqEn := false
  buf := []
  fault := none
  refused := none
  trace := []
  returns := []
  hpc := 0
  params := ⟨Config.maxPixels, Config.bufBase⟩
  hostInput := .words []
  sched := []
  draws := 0

end Sys2Proof.Machine
end

