-- ==== Sys2Proof/Machine/Ops.lean ====
section
/-! DEFINITION. The shared operations: when a step is enabled, raising a fault and refusing, the Pulse Buffer's accesses,
driving the line, the numeric codes. -/

namespace Sys2Proof.Machine

/-- What a meaning answers. -/
abbrev Out := Host.Outcome State Fault Refusal

/-! ## Enabled, held, stopped -/

/-- Neither FAULT nor REFUSED is set, which every rule's "enabled when" includes (10_state.md R26). -/
abbrev State.live (s : State) : Prop := s.fault = none ∧ s.refused = none

/-- A step of R13. With FAULT or REFUSED set the machine has stopped (R26; log 4). Where the guard holds the step has
its effect; where it does not, there is no step at all and the state stands (R12 `hold`, R94; log 3). -/
def guarded (s : State) (guard : Prop) [Decidable guard] (effect : Out) : Out :=
  match s.fault, s.refused with
  | some f, _ => .fault f.reason
  | none, some r => .refused r
  | none, none => if guard then effect else .next s

/-- No step is enabled for the agent that has the turn (R12 `hold`). -/
def hold (s : State) : Out := guarded s False (.next s)

/-! ## Taking an exception

NPX's exceptions are its sticky faults and refusals (60_exceptions.md R103, R104): nothing is saved but the reason and
HPC, no mode changes, no handler is entered, and there is no return but reset (R26). The completion interrupt saves and
restores nothing (R107, R108): its entry is IRQ_COMPLETION itself, and its end is the return. -/

/-- `raise Fault(f)` (R12): FAULT holds the reason and HPC (R103), everything else stands (log 11). DESIGN CHOICE (log 20):
the index is the field HPC as it is, also in FG_ENCODE and DMA_SEND, where UPDATE has already counted its command. -/
def State.raise (s : State) (f : Fault) : State := { s with fault := some ⟨f, s.hpc⟩ }

/-- `refuse(r)` (R12): REFUSED holds the reason (R104), everything else stands. -/
def State.refuse (s : State) (r : Refusal) : State := { s with refused := some r }

/-- A decoder's refusal as the machine's (R104). -/
def Refusal.ofDecode : DecodeRefusal → Refusal
  | .reservedOp => .reservedOp
  | .reservedBits => .reservedBits
  | .truncated => .truncated
  | .malformed => .malformed

/-! ## The line -/

/-- `emit(e)` (R12). -/
def State.emit (s : State) (e : WireEvent) : State := { s with trace := s.trace ++ [e] }

/-- The wire event of a write of LINE (10_state.md R27). -/
def Line.event : Line → WireEvent
  | .disabled => .disable
  | .enabled => .enable

/-- A write of LINE, which emits its event even when the value stands (R20, D32). -/
def State.drive (s : State) (l : Line) : State := ({ s with line := l }).emit l.event

/-! ## The Pulse Buffer -/

/-- The canonical form: addresses strictly rising (log 7). -/
abbrev Memory.wf (m : Memory) : Prop := m.Pairwise fun c d => c.1 < d.1

/-- The byte written at an offset, if one has been written. -/
def Memory.read? : Memory → Nat → Option Byte
  | [], _ => none
  | (a, v) :: m, i => if a = i then some v else Memory.read? m i

/-- The memory with a byte written at an offset. -/
def Memory.write : Memory → Nat → Byte → Memory
  | [], i, v => [(i, v)]
  | (a, x) :: m, i, v =>
    if i < a then (i, v) :: (a, x) :: m
    else if i = a then (i, v) :: m
    else (a, x) :: Memory.write m i v

/-- `BUF_LEN` (00_scope.md R9). -/
def State.bufLen (s : State) : Nat := Config.bytesPerPixel * s.params.maxPixels

/-- `s.BUF[i]`: the byte written last, or the reset contents, which R35 leaves "any" (log 7). -/
def State.bufByte (s : State) (i : Nat) : Byte := (s.buf.read? i).getD (Config.resetByte i)

/-- `MemRead(PB, i, 1)` (20_memory.md R39). -/
def memRead (s : State) (i : Nat) : Except Fault Byte :=
  if s.bufLen ≤ i then .error .bufRange else .ok (s.bufByte i)

/-- The state with another buffer. -/
def State.withBuf (s : State) (m : Memory) : State := { s with buf := m }

/-- `MemWrite(PB, i, 1, v)` (R39). -/
def memWrite (s : State) (i : Nat) (v : Byte) : Except Fault State :=
  if s.bufLen ≤ i then .error .bufRange else .ok (s.withBuf (s.buf.write i v))

/-- One `MemWrite` after another, at offsets rising from `i`. -/
def memWriteAll (s : State) (i : Nat) : List Byte → Except Fault State
  | [] => .ok s
  | v :: vs =>
    match memWrite s i v with
    | .error f => .error f
    | .ok s' => memWriteAll s' (i + 1) vs

/-- The bytes at offsets `0 .. n − 1`. -/
def State.bufBytes (s : State) (n : Nat) : List Byte := (List.range n).map s.bufByte

/-- The address of a Pulse Buffer byte: offset i lives at BUF_BASE + i (R38). -/
def State.bufAddress (s : State) (i : Nat) : Nat := s.params.bufBase + i

/-! ## Numeric codes -/

/-- The 3-bit code of PHASE in trace views (10_state.md R17). -/
def Phase.code : Phase → BitVec 3
  | .nocall => 0
  | .check => 1
  | .drain => 2
  | .prepare => 3
  | .encode => 4
  | .gapwait => 5
  | .arm => 6
  | .return => 7

/-- The 8-bit status codes (60_exceptions.md R102). -/
def Status.code : Status → Byte
  | .ok => 0x00
  | .invalidArgument => 0x01
  | .capacityExceeded => 0x02

end Sys2Proof.Machine
end

