-- ==== Sys2Proof/Machine/Flags.lean ====
section
/-! DEFINITION. The flags of NPX (10_state.md R32: TX_DONE, XFER_DONE, DMA_ACTIVE, READY, IRQ_EN): what each rule's line
"Flags written" writes, and what is read from them. -/

namespace Sys2Proof.Machine

/-- INIT's flags (41_host_commands.md R83). -/
def State.initFlags (s : State) : State :=
  { s with ready := true, txDone := true, irqEn := true, xferDone := false, dmaActive := false }

/-- FG_ARM's flags (42_transmit_controller.md R92). -/
def State.armFlags (s : State) : State := { s with txDone := false, dmaActive := true }

/-- DMA_COMPLETE's flags (43_dma_serial_timer.md R96). -/
def State.completeFlags (s : State) : State := { s with dmaActive := false, xferDone := true }

/-- IRQ_COMPLETION's flags: the indicator acknowledged, the transmission complete (60_exceptions.md R106). -/
def State.ackFlags (s : State) : State := { s with xferDone := false, txDone := true }

/-- The completion interrupt is pending (10_state.md R23, 60_exceptions.md R105). -/
abbrev State.interruptPending (s : State) : Prop := s.xferDone = true ∧ s.irqEn = true

/-- `is_complete()` of the source's transport interface (00_scope.md R6). -/
def State.isComplete (s : State) : Bool := !s.dmaActive

end Sys2Proof.Machine
end

