-- ==== Sys2Proof/Machine/Operands.lean ====
section
/-! DEFINITION. The operands of the controller's steps: the count read as sint32 (10_state.md R18), the argument check's
two tests (41_host_commands.md R85), the elapsed time of the reset gap (42_transmit_controller.md R91). -/

namespace Sys2Proof.Machine

/-- `n = sint32(CUR.count)` (R78, R85, R92). -/
def Operands.n (c : Operands) : Int := sint32 c.count

/-- "colors null or n ≤ 0" (R85). -/
def Operands.invalid (c : Operands) : Bool := c.colors.isNone || decide (c.n ≤ 0)

/-- "n > MAX_PIXELS" (R85). -/
def Operands.tooMany (c : Operands) (s : State) : Bool := decide ((s.params.maxPixels : Int) < c.n)

/-- `uint(TIMER) ≥ T_RESET_US`: the reset gap is over (R91, D14). -/
abbrev State.gapElapsed (s : State) : Prop := Config.tResetUs ≤ s.timer.toNat

/-- The length of a transfer of n pixels, `24 × n` (R92, D16). -/
def transferLength (n : Nat) : Nat := Config.bytesPerPixel * n

end Sys2Proof.Machine
end

