-- ==== Sys2Proof/Machine/Commands.lean ====
section
/-! DEFINITION. The host commands INIT and UPDATE, and the steps that open and close a call, FG_CHECK and FG_RETURN
(41_host_commands.md). -/

namespace Sys2Proof.Machine

/-- INIT (R83). The counter starts from a value drawn freely (log 8). -/
def execInit (s : State) : Out :=
  guarded s (s.phase = .nocall) <|
    if s.ready then .next (s.refuse .reinit)
    else
      .next <| State.initFlags <| State.drive (l := .disabled)
        { s with
          hpc := s.hpc + 1
          timer := Config.freeTimer s.draws
          draws := s.draws + 1
          dmaLen := 0
          dmaIdx := 0 }

/-- UPDATE (R84). -/
def execUpdate (colors : Option (List Color)) (count : Word) (s : State) : Out :=
  guarded s (s.phase = .nocall) <|
    if s.ready then .next { s with hpc := s.hpc + 1, cur := some ⟨colors, count⟩, phase := .check }
    else .next (s.raise .notReady)

/-- FG_CHECK (R85): the invalid-argument test first, then the capacity. -/
def execFgCheck (s : State) : Out :=
  guarded s (s.phase = .check) <|
    match s.cur with
    | none => .refused .noOperand
    | some c =>
      if c.invalid then .next { s with status := some .invalidArgument, phase := .return }
      else if c.tooMany s then .next { s with status := some .capacityExceeded, phase := .return }
      else .next { s with phase := .drain }

/-- FG_RETURN (R86). The event word's data records the status code and is not an operand (log 9). -/
def execFgReturn (_data : Byte) (s : State) : Out :=
  guarded s (s.phase = .return) <|
    match s.status with
    | none => .refused .noOperand
    | some st => .next { s with returns := s.returns ++ [st], status := none, cur := none, phase := .nocall }

end Sys2Proof.Machine
end

