-- ==== Sys2Proof/Machine/Controller.lean ====
section
/-! DEFINITION. The controller's steps between the argument check and the return (42_transmit_controller.md): FG_DRAIN,
FG_PREPARE, FG_GAPWAIT, FG_ARM. -/

namespace Sys2Proof.Machine

/-- FG_DRAIN (R89). -/
def execFgDrain (s : State) : Out :=
  guarded s (s.phase = .drain ∧ s.txDone = true) <| .next { s with phase := .prepare }

/-- FG_PREPARE (R90). -/
def execFgPrepare (s : State) : Out :=
  guarded s (s.phase = .prepare) <| .next (({ s with timer := 0, phase := .encode }).drive .disabled)

/-- FG_GAPWAIT (R91). -/
def execFgGapwait (s : State) : Out :=
  guarded s (s.phase = .gapwait ∧ s.gapElapsed) <| .next { s with phase := .arm }

/-- FG_ARM (R92): the four actions of the source in one atomic step. -/
def execFgArm (s : State) : Out :=
  guarded s (s.phase = .arm) <|
    match s.cur with
    | none => .refused .noOperand
    | some c =>
      if c.n < 0 then .refused .noOperand
      else
        .next <| State.armFlags <| State.drive (l := .enabled)
          { s with
            dmaSrc := s.params.bufBase
            dmaLen := transferLength c.n.toNat
            dmaIdx := 0
            status := some .ok
            phase := .return }

end Sys2Proof.Machine
end

