-- ==== Sys2Proof/Machine/Dma.lean ====
section
/-! DEFINITION. The DMA engine with the serial peripheral: DMA_SEND, DMA_COMPLETE (43_dma_serial_timer.md). -/

namespace Sys2Proof.Machine

/-- DMA_SEND (R95): one byte from the Pulse Buffer to the serial data register, which puts it on the line (20_memory.md
R42). The event word's data records the byte and is not an operand (log 9). -/
def execDmaSend (_data : Byte) (s : State) : Out :=
  guarded s (s.dmaActive = true ∧ s.dmaIdx < s.dmaLen) <|
    if s.line = .disabled then .next (s.raise .lineDisabled)
    else
      match memRead s s.dmaIdx with
      | .error f => .next (s.raise f)
      | .ok b => .next (({ s with dmaIdx := s.dmaIdx + 1 }).emit (.byte b))

/-- DMA_COMPLETE (R96). -/
def execDmaComplete (s : State) : Out :=
  guarded s (s.dmaActive = true ∧ s.dmaIdx = s.dmaLen) <| .next s.completeFlags

end Sys2Proof.Machine
end

