-- ==== Sys2Proof/Machine/Encoder.lean ====
section
/-! DEFINITION. The Encoder (40_encoder.md): its pure functions R72 to R77 and the step FG_ENCODE R78, and the shape of a
pulse byte on the wire (20_memory.md R44). -/

namespace Sys2Proof.Machine

/-! ## Pure functions -/

/-- `pulse(bit)`, the block's whole look-up table (R72). -/
def pulse (bit : Bool) : Byte := if bit then Config.pulseOne else Config.pulseZero

/-- `channel(c, k)`: Green, Red, Blue in emission order (R73). -/
def channel (c : Color) : Fin 3 → Byte
  | 0 => c.extractLsb' 16 8
  | 1 => c.extractLsb' 8 8
  | 2 => c.extractLsb' 0 8

/-- The inner loop of R74: as many pulse bytes as asked, the mask shifted right after each. -/
def encodeChannel (v mask : Byte) : Nat → List Byte
  | 0 => []
  | k + 1 => pulse (v &&& mask != 0) :: encodeChannel v (mask >>> 1) k

/-- `encode_pixel(c)`, the source's algorithm (R74). -/
def encodePixel (c : Color) : List Byte :=
  encodeChannel (channel c 0) 0x80 8 ++ encodeChannel (channel c 1) 0x80 8 ++ encodeChannel (channel c 2) 0x80 8

/-- `encode(colors, n)` (R77). -/
def encodeColors (colors : List Color) (n : Nat) : List Byte := (colors.take n).flatMap encodePixel

/-- The time cells of a byte on the wire, bit 7 first; `true` is a high cell (20_memory.md R44, D3). -/
def shiftOut (b : Byte) : List Bool := [7, 6, 5, 4, 3, 2, 1, 0].map b.getLsbD

/-- The line's level while no byte is shifted: low, disabled or enabled (10_state.md R20, 43_dma_serial_timer.md R97). -/
def Line.idleLevel : Line → Bool
  | .disabled => false
  | .enabled => false

/-- The time cells a wire event puts on the line (R27). -/
def WireEvent.cells : WireEvent → List Bool
  | .byte b => shiftOut b
  | .disable => []
  | .enable => []
  | .tick => []

/-! ## The step -/

/-- FG_ENCODE (R78): `24 × n` bytes from offset 0 in one atomic step, BUF_RANGE where one is out of range. -/
def execFgEncode (s : State) : Out :=
  guarded s (s.phase = .encode) <|
    match s.cur with
    | some ⟨some cs, count⟩ =>
      if cs.length < (sint32 count).toNat then .refused .noOperand
      else
        match memWriteAll s 0 (encodeColors cs (sint32 count).toNat) with
        | .error f => .next (s.raise f)
        | .ok t => .next { t with phase := .gapwait }
    | _ => .refused .noOperand

end Sys2Proof.Machine
end

