-- ==== Sys2Proof/Machine/Irq.lean ====
section
/-! DEFINITION. The completion interrupt: IRQ_COMPLETION (60_exceptions.md R105 to R108). -/

namespace Sys2Proof.Machine

/-- IRQ_COMPLETION (R106): one atomic step, entered when the interrupt is pending, saving and restoring nothing. -/
def execIrqCompletion (s : State) : Out :=
  guarded s s.interruptPending <| .next (s.ackFlags.drive .disabled)

end Sys2Proof.Machine
end

