-- ==== Sys2Proof/Machine/Timer.lean ====
section
/-! DEFINITION. The microsecond timer: TIMER_TICK (43_dma_serial_timer.md R99, R100). -/

namespace Sys2Proof.Machine

/-- TIMER_TICK (R99): the counter wraps modulo 2^32. -/
def execTimerTick (s : State) : Out :=
  guarded s (s.ready = true) <| .next (({ s with timer := s.timer + 1 }).emit .tick)

end Sys2Proof.Machine
end

