-- ==== Sys2Proof/Machine/Dispatch.lean ====
section
/-! DEFINITION. The dispatch: one meaning for each constructor of Instr. -/

namespace Sys2Proof.Machine

def exec (i : Instr) (s : State) : Host.Outcome State Fault Refusal :=
  match i with
  | .init => Sys2Proof.Machine.execInit s
  | .update colors count => Sys2Proof.Machine.execUpdate colors count s
  | .fgCheck => Sys2Proof.Machine.execFgCheck s
  | .fgDrain => Sys2Proof.Machine.execFgDrain s
  | .fgPrepare => Sys2Proof.Machine.execFgPrepare s
  | .fgEncode => Sys2Proof.Machine.execFgEncode s
  | .fgGapwait => Sys2Proof.Machine.execFgGapwait s
  | .fgArm => Sys2Proof.Machine.execFgArm s
  | .fgReturn data => Sys2Proof.Machine.execFgReturn data s
  | .dmaSend data => Sys2Proof.Machine.execDmaSend data s
  | .dmaComplete => Sys2Proof.Machine.execDmaComplete s
  | .irqCompletion => Sys2Proof.Machine.execIrqCompletion s
  | .timerTick => Sys2Proof.Machine.execTimerTick s

end Sys2Proof.Machine
end

