-- ==== Sys2Proof/Machine/Asm.lean ====
section
/-! DEFINITION. The text form of a host program (30_encoding.md R69): one command a line, `;` starting a comment, the
pseudo-instruction SHOW. A text that is not of the form, or not well formed by R64, is refused as MALFORMED (log 14). -/

namespace Sys2Proof.Machine

/-- A token of a line: a bracket, a comma, or a run of other characters. -/
inductive Token where
  | open
  | close
  | comma
  | word (cs : List Char)
deriving DecidableEq, Repr

/-- The lines of a text, each without its comment. `acc` is the line so far, reversed; `skip` is set inside a comment. -/
def asmLines (acc : List Char) (skip : Bool) : List Char → List (List Char)
  | [] => [acc.reverse]
  | c :: cs =>
    if c = '\n' then acc.reverse :: asmLines [] false cs
    else if skip || c = ';' then asmLines acc true cs
    else asmLines (c :: acc) false cs

/-- A finished run of characters as a token, in front of the others. -/
def pushWord (acc : List Char) (ts : List Token) : List Token :=
  if acc.isEmpty then ts else .word acc.reverse :: ts

/-- The tokens of a line. White space separates them (log 14). -/
def tokens (acc : List Char) : List Char → List Token
  | [] => pushWord acc []
  | c :: cs =>
    if c = ' ' ∨ c = '\t' ∨ c = '\r' then pushWord acc (tokens [] cs)
    else if c = '[' then pushWord acc (.open :: tokens [] cs)
    else if c = ']' then pushWord acc (.close :: tokens [] cs)
    else if c = ',' then pushWord acc (.comma :: tokens [] cs)
    else tokens (c :: acc) cs

/-- A digit's value in a base of at most 16. -/
def digit (base : Nat) (c : Char) : Option Nat :=
  let n := c.toNat
  let v := if 48 ≤ n ∧ n ≤ 57 then n - 48 else if 65 ≤ n ∧ n ≤ 70 then n - 55 else if 97 ≤ n ∧ n ≤ 102 then n - 87 else 16
  if v < base then some v else none

/-- A run of digits as a number. -/
def digits (base acc : Nat) : List Char → Option Nat
  | [] => some acc
  | c :: cs => (digit base c).bind fun d => digits base (base * acc + d) cs

/-- `<count>`: a decimal integer in −2^31 to 2^31 − 1 (R69). DESIGN CHOICE (log 14): one `-` may stand before the digits, so
`-0` is 0, and no `+`; leading zeros are allowed. -/
def parseCount (cs : List Char) : Option Word :=
  match cs with
  | '-' :: c :: ds => (digits 10 0 (c :: ds)).bind fun n => if n ≤ 2 ^ 31 then some (BitVec.ofInt 32 (-(n : Int))) else none
  | c :: ds => (digits 10 0 (c :: ds)).bind fun n => if n < 2 ^ 31 then some (BitVec.ofNat 32 n) else none
  | [] => none

/-- `<ci>`: `0x` and one to six hexadecimal digits (R69). -/
def parseColor (cs : List Char) : Option Color :=
  match cs with
  | '0' :: 'x' :: c :: ds => if ds.length < 6 then (digits 16 0 (c :: ds)).map (BitVec.ofNat 24) else none
  | _ => none

/-- The colours after the first, up to the closing bracket, and the tokens after it. -/
def parseMoreColors : List Token → Option (List Color × List Token)
  | .close :: ts => some ([], ts)
  | .comma :: .word w :: ts =>
    (parseColor w).bind fun c => (parseMoreColors ts).map fun (cs, rest) => (c :: cs, rest)
  | _ => none

/-- The colours after an opening bracket, and the tokens after the closing one. -/
def parseColors : List Token → Option (List Color × List Token)
  | .close :: ts => some ([], ts)
  | .word w :: ts => (parseColor w).bind fun c => (parseMoreColors ts).map fun (cs, rest) => (c :: cs, rest)
  | _ => none

/-- `SHOW [c0, ..., cm]` expands to `UPDATE [c0, ..., cm], m+1` (R69). -/
def showCommand (cs : List Color) : HostCmd := .update (some cs) (BitVec.ofNat 32 cs.length)

/-- One line's command. -/
def parseCommand : List Token → Option HostCmd
  | [.word ['I', 'N', 'I', 'T']] => some .init
  | [.word ['U', 'P', 'D', 'A', 'T', 'E'], .word ['n', 'u', 'l', 'l'], .comma, .word n] =>
    (parseCount n).map (HostCmd.update none)
  | .word ['U', 'P', 'D', 'A', 'T', 'E'] :: .open :: ts =>
    match parseColors ts with
    | some (cs, [.comma, .word n]) => (parseCount n).map (HostCmd.update (some cs))
    | _ => none
  | .word ['S', 'H', 'O', 'W'] :: .open :: ts =>
    match parseColors ts with
    | some (cs, []) => some (showCommand cs)
    | _ => none
  | _ => none

/-- The commands of the lines; an empty line has none. -/
def parseLines : List (List Token) → Option (List HostCmd)
  | [] => some []
  | [] :: ls => parseLines ls
  | l :: ls => (parseCommand l).bind fun c => (parseLines ls).map fun cs => c :: cs

/-- The check of terms (R64): a program with an ill-formed term is refused as a whole. -/
def checkTerms (cs : List HostCmd) : Except DecodeRefusal (List HostCmd) :=
  if cs.all HostCmd.wellFormed then .ok cs else .error .malformed

/-- The commands of a text (R69). -/
def assemble (src : List Char) : Except DecodeRefusal (List HostCmd) :=
  match parseLines ((asmLines [] false src).map (tokens [])) with
  | none => .error .malformed
  | some cs => checkTerms cs

end Sys2Proof.Machine
end

