-- ==== Sys2Proof/Machine/Fetch.lean ====
section
/-! DEFINITION. Which operation a step runs: the host's program (10_state.md R29, 30_encoding.md R57), the turn the
scheduler gives (60_exceptions.md R109; log 1), the operation of that turn, and the event word a step log records (R67). -/

namespace Sys2Proof.Machine

/-- HOSTPROG, decoded as a whole before any step (R57, R109), or why it has no meaning. -/
def resolveInput : HostInput → Except DecodeRefusal (List HostCmd)
  | .words ws => decodeProgram ws
  | .terms cs => checkTerms cs
  | .text src => assemble src

/-- The turn the next step takes: the schedule's first, or a free one where it names none. -/
def State.nextTurn (s : State) : Turn :=
  match s.sched with
  | [] => Config.freeTurn s.draws
  | t :: _ => t

/-- The state once that turn is taken. -/
def State.afterTurn (s : State) : State :=
  match s.sched with
  | [] => { s with draws := s.draws + 1 }
  | _ :: ts => { s with sched := ts }

/-- The operation of a turn: `HOSTPROG[HPC]`, none when the host has no more commands (R29), or the internal step. -/
def fetch (prog : List HostCmd) (s : State) : Turn → Option Instr
  | .host => prog[s.hpc]?.map HostCmd.toInstr
  | .internal e => some e.toInstr

/-- The event word that a step log records for an internal step taken in a state, with the byte moved or the status code
returned as its data (R67); a command has none. DESIGN CHOICE (log 21): a DMA_SEND that raises a fault, which moves no byte,
is recorded with the byte it would have moved. -/
def logWord (i : Instr) (s : State) : Option Word :=
  match i with
  | .init => none
  | .update _ _ => none
  | .fgCheck => some (eventWord 0x80 0)
  | .fgDrain => some (eventWord 0x81 0)
  | .fgPrepare => some (eventWord 0x82 0)
  | .fgEncode => some (eventWord 0x83 0)
  | .fgGapwait => some (eventWord 0x84 0)
  | .fgArm => some (eventWord 0x85 0)
  | .fgReturn _ => s.status.map fun st => eventWord 0x86 st.code
  | .dmaSend _ => some (eventWord 0x90 (s.bufByte s.dmaIdx))
  | .dmaComplete => some (eventWord 0x91 0)
  | .irqCompletion => some (eventWord 0xA0 0)
  | .timerTick => some (eventWord 0xB0 0)

/-- The state with an operation's words placed where the next step finds them: an event at the head of the schedule, or
the words as `HOSTPROG[HPC]` with HOST's turn at the head of the schedule; INIT words stand for the commands already
issued, so that HPC stands (log 2). -/
def State.place (s : State) (ws : List Word) : State :=
  let command := { s with hostInput := .words (List.replicate s.hpc 0x01000000 ++ ws), sched := .host :: s.sched }
  match ws with
  | [] => command
  | w :: _ =>
    match decodeEvent w with
    | .ok e => { s with sched := .internal e :: s.sched }
    | .error _ => command

end Sys2Proof.Machine
end

