-- ==== Sys2Proof/Machine/Step.lean ====
section
/-! DEFINITION. The step: the turn's agent takes its step, once the host's program has been decoded (00_scope.md R4,
60_exceptions.md R109). -/

namespace Sys2Proof.Machine

/-- A step on a given turn. A host program without a meaning stops the run before any step (R57, R104). -/
def stepTurn (t : Turn) (s : State) : Host.Outcome State Fault Refusal :=
  match resolveInput s.hostInput with
  | .error r => .refused (.ofDecode r)
  | .ok prog =>
    match fetch prog s t with
    | none => hold s
    | some i => exec i s

/-- One step of the machine. -/
def step (s : State) : Host.Outcome State Fault Refusal := stepTurn s.nextTurn s.afterTurn

/-- The state in which the next step runs the operation whose bits are `w`, numbered as the opcode table numbers them. -/
def State.withFetchWord (s : State) (nbits w : Nat) : State := s.place (paddedTableWords nbits w)

end Sys2Proof.Machine
end

