-- ==== Sys2Proof/Safety.lean ====
section
/-! DEFINITION. The terms that claims about NPX use: when a step is enabled, the source's three states (10_state.md R33),
final and stuck states (70_reset_and_hazards.md R120), the invariants R122 to R125, what the wire shows (R127, R129), who
may write what (R34), runs and fairness (R119). -/

namespace Sys2Proof.Machine

/-! ## Enabled steps -/

/-- The line "Enabled when" of each step's rule, without FAULT and REFUSED and without the host's program. -/
def guardHolds (i : Instr) (s : State) : Bool :=
  match i with
  | .init => decide (s.phase = .nocall)
  | .update _ _ => decide (s.phase = .nocall)
  | .fgCheck => decide (s.phase = .check)
  | .fgDrain => decide (s.phase = .drain) && s.txDone
  | .fgPrepare => decide (s.phase = .prepare)
  | .fgEncode => decide (s.phase = .encode)
  | .fgGapwait => decide (s.phase = .gapwait) && decide s.gapElapsed
  | .fgArm => decide (s.phase = .arm)
  | .fgReturn _ => decide (s.phase = .return)
  | .dmaSend _ => s.dmaActive && decide (s.dmaIdx < s.dmaLen)
  | .dmaComplete => s.dmaActive && decide (s.dmaIdx = s.dmaLen)
  | .irqCompletion => s.xferDone && s.irqEn
  | .timerTick => s.ready

/-- `HOSTPROG[HPC]` (10_state.md R29), none when the host has no more commands or its program has no meaning. -/
def State.issues (s : State) : Option Instr :=
  match resolveInput s.hostInput with
  | .error _ => none
  | .ok prog => fetch prog s .host

/-- A step is enabled: its rule's guard, no fault and no refusal, and a command must be the host's next. -/
def State.enables (s : State) (i : Instr) : Bool :=
  decide s.live && guardHolds i s && (decide (i.agent ≠ .host) || decide (s.issues = some i))

/-- Some step of the agent is enabled. -/
def State.agentEnabled (s : State) (a : Agent) : Prop := ∃ i : Instr, i.agent = a ∧ s.enables i = true

/-! ## The source's states -/

/-- `Preparing` (R33). -/
abbrev State.preparing (s : State) : Prop := s.phase = .encode ∨ s.phase = .gapwait ∨ s.phase = .arm

/-- `Armed` (R33). -/
abbrev State.armed (s : State) : Prop := s.txDone = false

/-- `Idle` (R33). -/
abbrev State.idle (s : State) : Prop := s.txDone = true ∧ ¬ s.preparing

/-- The phases of R123, in which no transfer is in flight. -/
abbrev Phase.beforeArm (p : Phase) : Prop := p = .prepare ∨ p = .encode ∨ p = .gapwait ∨ p = .arm

/-! ## Final and stuck states -/

/-- `final` (R120). -/
def State.final (s : State) : Prop :=
  s.fault = none ∧ s.refused = none ∧ (∃ prog, resolveInput s.hostInput = .ok prog ∧ s.hpc = prog.length) ∧
    s.phase = .nocall ∧ s.dmaActive = false ∧ s.xferDone = false

/-- `stuck` (R120, 93_implementation_defined.md U25): not final, nothing enabled but TIMER_TICK, and the gap wait, whose
hold TIMER_TICK lifts, is not the reason (log 13). -/
def State.stuck (s : State) : Prop :=
  s.live ∧ ¬ s.final ∧ (∀ i, s.enables i = true → i = .timerTick) ∧ ¬ (s.ready = true ∧ s.phase = .gapwait)

/-! ## Invariants -/

/-- R9's constraint on MAX_PIXELS. -/
abbrev Params.valid (p : Params) : Prop :=
  1 ≤ p.maxPixels ∧ Config.bytesPerPixel * p.maxPixels ≤ 2 ^ 31 - 1

/-- The operands that FG_CHECK lets pass: colours not null, as many as the count, 1 ≤ n ≤ MAX_PIXELS (R85). -/
def Operands.admitted (c : Operands) (s : State) : Prop :=
  ∃ cs : List Color, c.colors = some cs ∧ (cs.length : Int) = c.n ∧ 1 ≤ cs.length ∧ cs.length ≤ s.params.maxPixels

/-- `BUF[0 ..]` begins with the encoding of these colours (R125). -/
def State.holdsFrame (s : State) (cs : List Color) : Prop :=
  s.bufBytes (transferLength cs.length) = encodeColors cs cs.length

/-- The invariants of 70_reset_and_hazards.md, with what their derivations rest on. -/
structure State.Inv (s : State) : Prop where
  /-- R9. -/
  params : s.params.valid
  /-- The Pulse Buffer keeps its canonical form, -/
  bufWf : Memory.wf s.buf
  /-- and lists only its own offsets (20_memory.md R38). -/
  bufRange : ∀ c ∈ s.buf, c.1 < s.bufLen
  /-- Before INIT nothing is in progress (R117). -/
  beforeInit : s.ready = false →
    s.phase = .nocall ∧ s.dmaActive = false ∧ s.xferDone = false ∧ s.irqEn = false ∧ s.line = .disabled
  /-- After INIT the handler is registered (10_state.md R24). -/
  registered : s.ready = true → s.irqEn = true
  /-- R122, first part. -/
  txDone : s.ready = true → (s.txDone = true ↔ s.dmaActive = false ∧ s.xferDone = false)
  /-- R122, second part. -/
  exclusive : ¬ (s.dmaActive = true ∧ s.xferDone = true)
  /-- R123. -/
  idleBeforeArm : s.ready = true → s.phase.beforeArm → s.txDone = true ∧ s.dmaActive = false ∧ s.xferDone = false
  /-- R124. -/
  lineEnabled : s.dmaActive = true → s.line = .enabled
  /-- 10_state.md R22. -/
  dmaBounds : s.dmaIdx ≤ s.dmaLen ∧ s.dmaLen ≤ s.bufLen
  /-- R125: the buffer holds the frame in flight, -/
  inFlight : s.dmaActive = true →
    ∃ cs : List Color, 1 ≤ cs.length ∧ cs.length ≤ s.params.maxPixels ∧ s.dmaLen = transferLength cs.length ∧ s.holdsFrame cs
  /-- and a completion is signalled only after its last byte (R96). -/
  allSent : s.xferDone = true → s.dmaIdx = s.dmaLen
  /-- CUR holds the operands of a call in progress (10_state.md R18). -/
  curInCall : s.cur = none ↔ s.phase = .nocall
  /-- STATUS holds a status only when the call is about to return (R19). -/
  statusAtReturn : s.status = none ↔ s.phase ≠ .return
  /-- The operands are a well-formed term (30_encoding.md R64). -/
  curWellFormed : ∀ c, s.cur = some c → operandsWellFormed c.colors c.count = true
  /-- After FG_CHECK let them pass, they are admitted ones (R85). -/
  curAdmitted : ∀ c, s.cur = some c → (s.phase = .drain ∨ s.phase.beforeArm ∨ s.status = some .ok) → c.admitted s
  /-- After FG_ENCODE the buffer holds the call's frame (R78). -/
  encoded : (s.phase = .gapwait ∨ s.phase = .arm) → ∀ cs count, s.cur = some ⟨some cs, count⟩ → s.holdsFrame cs
  /-- HPC stops at the program's length (10_state.md R31). -/
  hpcBound : ∀ prog, resolveInput s.hostInput = .ok prog → s.hpc ≤ prog.length

/-! ## What the wire shows -/

/-- A reader of TRACE for the reset-gap law (R127): ticks and bytes since the last Disable that no Enable has used. -/
structure GapScan where
  disabled : Bool
  ticks : Nat
  sent : Bool
  ok : Bool
deriving DecidableEq, Repr

def GapScan.next (g : GapScan) : WireEvent → GapScan
  | .disable => { g with disabled := true, ticks := 0, sent := false }
  | .tick => { g with ticks := g.ticks + 1 }
  | .byte _ => { g with sent := true }
  | .enable => { g with disabled := false, ok := g.ok && g.disabled && !g.sent && decide (Config.tResetUs ≤ g.ticks) }

def gapScan (trace : List WireEvent) : GapScan := trace.foldl GapScan.next ⟨false, 0, false, true⟩

/-- Every Enable of the trace has a Disable of its own before it, with at least T_RESET_US ticks and no byte between. -/
abbrev gapsKept (trace : List WireEvent) : Prop := (gapScan trace).ok = true

/-- What R127's derivation keeps: while the controller is Preparing, the last Disable is FG_PREPARE's, no byte came after
it, and TIMER counts at most the ticks since. -/
structure State.GapInv (s : State) : Prop where
  kept : gapsKept s.trace
  measured : s.preparing → (gapScan s.trace).disabled = true ∧ (gapScan s.trace).sent = false ∧
    s.timer.toNat ≤ (gapScan s.trace).ticks
  elapsed : s.phase = .arm → Config.tResetUs ≤ (gapScan s.trace).ticks

/-- A reader of TRACE for the frame law (R129): the bytes since an Enable, and the frames a Disable has ended. -/
structure FrameScan where
  isOpen : Bool
  bytes : List Byte
  frames : List (List Byte)
deriving DecidableEq, Repr

def FrameScan.next (f : FrameScan) : WireEvent → FrameScan
  | .enable => { f with isOpen := true, bytes := [] }
  | .byte b => { f with bytes := f.bytes ++ [b] }
  | .disable => if f.isOpen then ⟨false, [], f.frames ++ [f.bytes]⟩ else f
  | .tick => f

def frameScan (trace : List WireEvent) : FrameScan := trace.foldl FrameScan.next ⟨false, [], []⟩

/-- The UPDATE calls of a program, in order. -/
def updatesOf (cs : List HostCmd) : List Operands :=
  cs.filterMap fun
    | .init => none
    | .update colors count => some ⟨colors, count⟩

/-- The frame a call puts on the wire: `encode(C, n)` when it returns OK (R129), none otherwise. -/
def frameDue : Operands × Status → Option (List Byte)
  | (⟨some cs, count⟩, .ok) => some (encodeColors cs (sint32 count).toNat)
  | _ => none

/-- The frames due for calls and the statuses they return. -/
def framesDue (calls : List Operands) (statuses : List Status) : List (List Byte) := (calls.zip statuses).filterMap frameDue

/-- The status a call returns (R85): the invalid-argument test first, then the capacity. -/
def statusDue (maxPixels : Nat) (c : Operands) : Status :=
  if c.invalid then .invalidArgument else if (maxPixels : Int) < c.n then .capacityExceeded else .ok

/-- The wire events of one call, ticks left out: nothing for a call that fails; for one that returns OK, FG_PREPARE's
Disable, FG_ARM's Enable, the frame, and IRQ_COMPLETION's Disable. -/
def callWire (maxPixels : Nat) (c : Operands) : List WireEvent :=
  if statusDue maxPixels c = .ok then
    [.disable, .enable] ++ (encodeColors (c.colors.getD []) c.n.toNat).map WireEvent.byte ++ [.disable]
  else []

/-- The wire events of a program's commands, ticks left out: INIT's Disable (R83), and each call's. -/
def wireDue (maxPixels : Nat) (prog : List HostCmd) : List WireEvent :=
  prog.flatMap fun
    | .init => [.disable]
    | .update colors count => callWire maxPixels ⟨colors, count⟩

/-- A trace without its ticks. -/
def withoutTicks (trace : List WireEvent) : List WireEvent := trace.filter (· ≠ .tick)

/-- What R129's derivation keeps: the frames on the wire, and the one being sent, are those of the calls that returned OK
or are about to. -/
structure State.FrameInv (s : State) (prog : List HostCmd) : Prop where
  counted : (updatesOf (prog.take s.hpc)).length = s.returns.length + (if s.phase = .nocall then 0 else 1)
  serving : s.phase ≠ .nocall → (updatesOf (prog.take s.hpc)).getLast? = s.cur
  isOpen : (frameScan s.trace).isOpen = (s.ready && !s.txDone)
  bytes : (frameScan s.trace).isOpen = true → (frameScan s.trace).bytes = s.bufBytes s.dmaIdx
  frames : (frameScan s.trace).frames ++ (if (frameScan s.trace).isOpen then [s.bufBytes s.dmaLen] else []) =
    framesDue (updatesOf (prog.take s.hpc)) (s.returns ++ s.status.toList)

/-! ## Who may write what -/

/-- The fields of R14; `Field.number` is the register number of trace and debug views. -/
inductive Field where
  | ready | txDone | phase | cur | status | line | timer | dmaActive | dmaSrc | dmaLen | dmaIdx | xferDone | irqEn | buf
  | fault | refused | trace | returns | hpc
deriving DecidableEq, Repr

def Field.number : Field → Nat
  | .ready => 0
  | .txDone => 1
  | .phase => 2
  | .cur => 3
  | .status => 4
  | .line => 5
  | .timer => 6
  | .dmaActive => 7
  | .dmaSrc => 8
  | .dmaLen => 9
  | .dmaIdx => 10
  | .xferDone => 11
  | .irqEn => 12
  | .buf => 13
  | .fault => 14
  | .refused => 15
  | .trace => 16
  | .returns => 17
  | .hpc => 18

/-- Two states agree on a field. -/
def Field.same (f : Field) (s t : State) : Prop :=
  match f with
  | .ready => s.ready = t.ready
  | .txDone => s.txDone = t.txDone
  | .phase => s.phase = t.phase
  | .cur => s.cur = t.cur
  | .status => s.status = t.status
  | .line => s.line = t.line
  | .timer => s.timer = t.timer
  | .dmaActive => s.dmaActive = t.dmaActive
  | .dmaSrc => s.dmaSrc = t.dmaSrc
  | .dmaLen => s.dmaLen = t.dmaLen
  | .dmaIdx => s.dmaIdx = t.dmaIdx
  | .xferDone => s.xferDone = t.xferDone
  | .irqEn => s.irqEn = t.irqEn
  | .buf => s.buf = t.buf
  | .fault => s.fault = t.fault
  | .refused => s.refused = t.refused
  | .trace => s.trace = t.trace
  | .returns => s.returns = t.returns
  | .hpc => s.hpc = t.hpc

/-- R34's table of writers, with INIT's write of TIMER (R83; log 15) and the rows the table leaves out: HPC by HOST (R29),
RETURNS by FG (R28), TRACE by every agent (R27), FAULT and REFUSED by the steps that raise (R103, R104). -/
def fieldsWrittenBy : Agent → List Field
  | .host => [.ready, .txDone, .phase, .cur, .line, .timer, .dmaActive, .dmaLen, .dmaIdx, .xferDone, .irqEn, .fault, .refused,
      .trace, .hpc]
  | .fg => [.txDone, .phase, .cur, .status, .line, .timer, .dmaActive, .dmaSrc, .dmaLen, .dmaIdx, .buf, .fault, .trace, .returns]
  | .dma => [.dmaActive, .dmaIdx, .xferDone, .fault, .trace]
  | .irq => [.txDone, .line, .xferDone, .trace]
  | .timer => [.timer, .trace]

/-! ## Runs -/

/-- One step after another, on given turns, stopping at the first fault or refusal. -/
def runTurns : List Turn → State → Host.Outcome State Fault Refusal
  | [], s => .next s
  | t :: ts, s =>
    match stepTurn t s with
    | .next s' => runTurns ts s'
    | .fault f => .fault f
    | .refused r => .refused r

/-- A state a run starts from: R35's fixed values, anything where R35 says "any", any program, any parameters that R9
allows, any schedule. -/
def State.isStart (s : State) : Prop :=
  s.ready = false ∧ s.phase = .nocall ∧ s.cur = none ∧ s.status = none ∧ s.line = .disabled ∧ s.dmaActive = false ∧
    s.dmaLen = 0 ∧ s.dmaIdx = 0 ∧ s.xferDone = false ∧ s.irqEn = false ∧ s.fault = none ∧ s.refused = none ∧ s.trace = [] ∧
    s.returns = [] ∧ s.hpc = 0 ∧ s.params.valid ∧ Memory.wf s.buf ∧ ∀ c ∈ s.buf, c.1 < s.bufLen

/-- The states of the runs: any turn may be taken (R4), given or scheduled. -/
inductive Reachable : State → Prop where
  | start {s : State} : s.isStart → Reachable s
  | turn {s t : State} (turn : Turn) : Reachable s → stepTurn turn s = .next t → Reachable t
  | step {s t : State} : Reachable s → step s = .next t → Reachable t

/-- The agent whose turn it is. -/
def turnAgent : Turn → Agent
  | .host => .host
  | .internal e => e.toInstr.agent

/-- The operation a turn offers in a state. -/
def State.offered (s : State) : Turn → Option Instr
  | .host => s.issues
  | .internal e => some e.toInstr

/-- An infinite run (R4, R119): a state and a turn for every moment. -/
structure IsRun (state : Nat → State) (turn : Nat → Turn) : Prop where
  start : (state 0).isStart
  moves : ∀ k, stepTurn (turn k) (state k) = .next (state (k + 1))

/-- The turn taken at a moment is an enabled step of the agent. -/
def takesStep (state : Nat → State) (turn : Nat → Turn) (a : Agent) (k : Nat) : Prop :=
  turnAgent (turn k) = a ∧ ∃ i, (state k).offered (turn k) = some i ∧ (state k).enables i = true

/-- A fair run (R119): every agent whose step stays enabled from some point on eventually takes a step. -/
def IsFair (state : Nat → State) (turn : Nat → Turn) : Prop :=
  ∀ (a : Agent) (k : Nat), (∀ j, k ≤ j → (state j).agentEnabled a) → ∃ j, k ≤ j ∧ takesStep state turn a j

end Sys2Proof.Machine
end

