-- ==== Sys2Proof/Certificates/Slice0/Obligations.lean ====
section
/-! DEFINITION. The statements for the provers. Each docstring names the rule of spec/ it formalises; a clause that is the
model's own choice says so and names the log entry. -/

open Sys2Proof Sys2Proof.Machine

/-! ## Encoding -/

/-- R70, all seven examples as text and as words, and the three refusals. -/
def Obligations.EncodingExamplesOfTheSpec : Prop :=
  decodeProgram [0x01000000] = .ok [.init] ∧
  decodeProgram [0x02000001, 0x00000005] = .ok [.update none 5] ∧
  decodeProgram [0x02000000, 0x00000000] = .ok [.update (some []) 0] ∧
  decodeProgram [0x02000000, 0xFFFFFFFF] = .ok [.update (some []) 0xFFFFFFFF] ∧
  decodeProgram [0x02000000, 0x00000001, 0x0000FF00] = .ok [.update (some [0x00FF00]) 1] ∧
  decodeProgram [0x02000000, 0x00000002, 0x00000000, 0x00FFFFFF] = .ok [showCommand [0x000000, 0xFFFFFF]] ∧
  decodeProgram [0x02000001, 0x00000000] = .ok [.update none 0] ∧
  assemble ['I', 'N', 'I', 'T'] = .ok [.init] ∧
  assemble ['U', 'P', 'D', 'A', 'T', 'E', ' ', 'n', 'u', 'l', 'l', ',', ' ', '5'] = .ok [.update none 5] ∧
  assemble ['U', 'P', 'D', 'A', 'T', 'E', ' ', '[', ']', ',', ' ', '0'] = .ok [.update (some []) 0] ∧
  assemble ['U', 'P', 'D', 'A', 'T', 'E', ' ', '[', ']', ',', ' ', '-', '1'] = .ok [.update (some []) 0xFFFFFFFF] ∧
  assemble ['U', 'P', 'D', 'A', 'T', 'E', ' ', '[', '0', 'x', '0', '0', 'F', 'F', '0', '0', ']', ',', ' ', '1'] =
    .ok [.update (some [0x00FF00]) 1] ∧
  assemble ['S', 'H', 'O', 'W', ' ', '[', '0', 'x', '0', '0', '0', '0', '0', '0', ',', ' ', '0', 'x', 'F', 'F', 'F', 'F', 'F', 'F', ']'] =
    .ok [showCommand [0x000000, 0xFFFFFF]] ∧
  assemble ['U', 'P', 'D', 'A', 'T', 'E', ' ', 'n', 'u', 'l', 'l', ',', ' ', '0'] = .ok [.update none 0] ∧
  decodeProgram [0x03000000] = .error .reservedOp ∧
  decodeProgram [0x01000001] = .error .reservedBits ∧
  decodeProgram [0x02000000, 0x00000002, 0x00000000] = .error .truncated

/-- R67: the word of every row of the event table, with a data byte for the two that carry one. That a word outside the
format is refused with the decoder's reasons is the model's choice (log 18). -/
def Obligations.EventTableDecodes : Prop :=
  decode [0x80000000] = .ok (.fgCheck, []) ∧ decode [0x81000000] = .ok (.fgDrain, []) ∧
  decode [0x82000000] = .ok (.fgPrepare, []) ∧ decode [0x83000000] = .ok (.fgEncode, []) ∧
  decode [0x84000000] = .ok (.fgGapwait, []) ∧ decode [0x85000000] = .ok (.fgArm, []) ∧
  decode [0x86000002] = .ok (.fgReturn 0x02, []) ∧ decode [0x900000FE] = .ok (.dmaSend 0xFE, []) ∧
  decode [0x91000000] = .ok (.dmaComplete, []) ∧ decode [0xA0000000] = .ok (.irqCompletion, []) ∧
  decode [0xB0000000] = .ok (.timerTick, []) ∧ decode [0x87000000] = .error .reservedOp ∧
  decode [0x80000100] = .error .reservedBits

/-- Decoding what the encoder writes gives every well-formed operation back, with every operand, and leaves the words
after it (R58 to R63, R67). -/
def Obligations.DecodeOfEncodeIsTheOperation : Prop :=
  ∀ (i : Instr) (rest : List Word), i.wellFormed = true → decode (encode i ++ rest) = .ok (i, rest)

/-- The command port decodes the words of every well-formed program to that program (R57, R65). -/
def Obligations.ProgramRoundTrip : Prop :=
  ∀ cs : List HostCmd, (∀ c ∈ cs, c.wellFormed = true) → decodeProgram (encodeProgram cs) = .ok cs

/-- R64: the decoder of R65 produces only well-formed terms. -/
def Obligations.DecodedTermsAreWellFormed : Prop :=
  ∀ (ws : List Word) (cs : List HostCmd), decodeProgram ws = .ok cs → ∀ c ∈ cs, c.wellFormed = true

/-- R62 and R61: the operands of an UPDATE transaction, the colours read from bits 23:0 of k colour words whatever their
bits 31:24 are, and the words after them left. -/
def Obligations.UpdateOperandsAssembled : Prop :=
  ∀ (w0 w1 : Word) (cws rest : List Word), opOf w0 = 0x02 → rsvdOf w0 = 0 →
    ((cnullOf w0 = true ∧ cws = []) ∨ (cnullOf w0 = false ∧ 1 ≤ sint32 w1 ∧ (cws.length : Int) = sint32 w1) ∨
      (cnullOf w0 = false ∧ sint32 w1 ≤ 0 ∧ cws = [])) →
    decodeCommand (w0 :: w1 :: (cws ++ rest)) =
      .ok (.update (if cnullOf w0 then none else some (cws.map fun w => BitVec.ofNat 24 (w.toNat % 2 ^ 24))) w1, rest)

/-- R66: a reserved operation code, the event codes among them, a set reserved bit, and INIT with CNULL are refused,
wherever in a program they come first. -/
def Obligations.ReservedEncodingsAreRefused : Prop :=
  ∀ (cs : List HostCmd) (w : Word) (ws : List Word), (∀ c ∈ cs, c.wellFormed = true) →
    (w.toNat / 2 ^ 24 ≠ 1 → w.toNat / 2 ^ 24 ≠ 2 → decodeProgram (encodeProgram cs ++ w :: ws) = .error .reservedOp) ∧
    (w.toNat / 2 ^ 24 = 1 → w.toNat % 2 ^ 24 ≠ 0 → decodeProgram (encodeProgram cs ++ w :: ws) = .error .reservedBits) ∧
    (w.toNat / 2 ^ 24 = 2 → w.toNat / 2 % 2 ^ 23 ≠ 0 → decodeProgram (encodeProgram cs ++ w :: ws) = .error .reservedBits)

/-- R65: a word sequence that ends inside an UPDATE transaction is refused as TRUNCATED, wherever in a program it comes
first: no COUNT word, whether the colour operand is null or not, or, where it is not, fewer colour words than the count
announces. -/
def Obligations.TruncatedTransactionsAreRefused : Prop :=
  ∀ (cs : List HostCmd) (w0 : Word), (∀ c ∈ cs, c.wellFormed = true) →
    w0.toNat / 2 ^ 24 = 2 → w0.toNat / 2 % 2 ^ 23 = 0 →
    decodeProgram (encodeProgram cs ++ [w0]) = .error .truncated ∧
    ∀ (w1 : Word) (cws : List Word), w0.toNat % 2 = 0 → (cws.length : Int) < sint32 w1 →
      decodeProgram (encodeProgram cs ++ w0 :: w1 :: cws) = .error .truncated

/-- R67: the event word a step log records for DMA_SEND and FG_RETURN holds the byte put on the wire and the code of the
status returned. That the data of an event offered as a choice is not read is the model's choice (log 9). -/
def Obligations.EventWordsRecordTheData : Prop :=
  ∀ (s t : State) (data : Byte),
    (exec (.dmaSend data) s = .next t → guardHolds (.dmaSend data) s = true → t.fault = none →
      ∃ b, t.trace = s.trace ++ [.byte b] ∧ logWord (.dmaSend data) s = some (eventWord 0x90 b)) ∧
    (exec (.fgReturn data) s = .next t → guardHolds (.fgReturn data) s = true →
      ∃ st, t.returns = s.returns ++ [st] ∧ logWord (.fgReturn data) s = some (eventWord 0x86 st.code))

/-! ## The Encoder -/

/-- R75: `encode_pixel(c)[j] = pulse(c[23 − j])`, where the model defines `encode_pixel` by R74's masks. -/
def Obligations.EncodePixelClosedForm : Prop :=
  ∀ (c : Color) (j : Nat), j < 24 → (encodePixel c)[j]? = some (if c.getLsbD (23 - j) then 0xFE else 0x80)

/-- R76: lane k holds the pulses of channel k, bit 7 first, and changing one channel changes only its own lane. -/
def Obligations.LanesAreIndependent : Prop :=
  ∀ (c d : Color) (k : Fin 3) (i : Nat), i < 8 →
    (encodePixel c)[8 * k.val + i]? = some (pulse ((channel c k).getLsbD (7 - i))) ∧
    (channel c k = channel d k → (encodePixel c)[8 * k.val + i]? = (encodePixel d)[8 * k.val + i]?)

/-- R77 and R43: `encode(colors, n)` has 24 × n bytes, and byte 24p + j encodes bit 23 − j of colour p. -/
def Obligations.EncodePlacesEveryBit : Prop :=
  ∀ (cs : List Color) (n : Nat), n ≤ cs.length →
    (encodeColors cs n).length = 24 * n ∧
    ∀ (p j : Nat) (hp : p < cs.length), p < n → j < 24 →
      (encodeColors cs n)[24 * p + j]? = some (if cs[p].getLsbD (23 - j) then 0xFE else 0x80)

/-- R44: PULSE_ZERO is one high cell and seven low ones, PULSE_ONE seven high cells and one low one, and every byte of an
encoding starts high and ends low. -/
def Obligations.PulsesOnTheWire : Prop :=
  shiftOut Config.pulseZero = [true, false, false, false, false, false, false, false] ∧
  shiftOut Config.pulseOne = [true, true, true, true, true, true, true, false] ∧
  ∀ (cs : List Color) (n : Nat), ∀ b ∈ encodeColors cs n,
    (shiftOut b).head? = some true ∧ (shiftOut b).getLast? = some false

/-- R39: an access below BUF_LEN reads the byte and writes it and no other; an access at BUF_LEN or above raises
BUF_RANGE. -/
def Obligations.BufferAccesses : Prop :=
  ∀ (s : State) (i : Nat) (v : Byte), Memory.wf s.buf →
    (24 * s.params.maxPixels ≤ i → memRead s i = .error .bufRange ∧ memWrite s i v = .error .bufRange) ∧
    (i < 24 * s.params.maxPixels → memRead s i = .ok (s.bufByte i) ∧
      ∃ t, memWrite s i v = .ok t ∧ t = { s with buf := t.buf } ∧ Memory.wf t.buf ∧
        t.bufByte i = v ∧ ∀ j, j ≠ i → t.bufByte j = s.bufByte j)

/-! ## What each operation does -/

/-- R83: INIT's effect, from any value of the timer drawn; a second INIT is refused with REINIT. -/
def Obligations.InitBringsTheBlockUp : Prop :=
  ∀ s : State, s.live → s.phase = .nocall →
    (s.ready = false → ∃ v : Word, exec .init s = .next
      { s with
        hpc := s.hpc + 1, timer := v, draws := s.draws + 1, dmaActive := false, dmaLen := 0, dmaIdx := 0, xferDone := false,
        irqEn := true, line := .disabled, trace := s.trace ++ [.disable], ready := true, txDone := true }) ∧
    (s.ready = true → exec .init s = .next { s with refused := some .reinit })

/-- R84: UPDATE captures its operands and opens the call; before INIT it raises NOT_READY, recorded with HPC (R103). -/
def Obligations.UpdateOpensTheCall : Prop :=
  ∀ (s : State) (colors : Option (List Color)) (count : Word), s.live → s.phase = .nocall →
    (s.ready = true → exec (.update colors count) s = .next
      { s with hpc := s.hpc + 1, cur := some ⟨colors, count⟩, phase := .check }) ∧
    (s.ready = false → exec (.update colors count) s = .next { s with fault := some ⟨.notReady, s.hpc⟩ })

/-- R85: FG_CHECK's three outcomes; on either error nothing but STATUS and PHASE changes. -/
def Obligations.FgCheckSortsTheArguments : Prop :=
  ∀ (s : State) (c : Operands), s.live → s.phase = .check → s.cur = some c →
    ((c.colors = none ∨ sint32 c.count ≤ 0) → exec .fgCheck s = .next
      { s with status := some .invalidArgument, phase := .return }) ∧
    (c.colors ≠ none → 0 < sint32 c.count → (s.params.maxPixels : Int) < sint32 c.count → exec .fgCheck s = .next
      { s with status := some .capacityExceeded, phase := .return }) ∧
    (c.colors ≠ none → 0 < sint32 c.count → sint32 c.count ≤ (s.params.maxPixels : Int) → exec .fgCheck s = .next
      { s with phase := .drain })

/-- R89: with TX_DONE the drain is over; without it the step holds, which the model renders as a state that stands
(log 3). -/
def Obligations.FgDrainWaitsForCompletion : Prop :=
  ∀ s : State, s.live → s.phase = .drain →
    (s.txDone = true → exec .fgDrain s = .next { s with phase := .prepare }) ∧
    (s.txDone = false → exec .fgDrain s = .next s)

/-- R90: FG_PREPARE resets the timer, disables the line and emits Disable, whatever the line was. -/
def Obligations.FgPrepareStartsTheGap : Prop :=
  ∀ s : State, s.live → s.phase = .prepare → exec .fgPrepare s = .next
    { s with timer := 0, line := .disabled, trace := s.trace ++ [.disable], phase := .encode }

/-- R78 and R79: FG_ENCODE completes for every admitted count, byte 24p + j becomes PULSE_ONE exactly when bit 23 − j of
colour p is set, every other byte of the buffer reads as before, and nothing but BUF and PHASE changes. -/
def Obligations.FgEncodeFillsTheBuffer : Prop :=
  ∀ (s : State) (cs : List Color) (count : Word), s.live → s.phase = .encode → s.cur = some ⟨some cs, count⟩ →
    (cs.length : Int) = sint32 count → 1 ≤ cs.length → cs.length ≤ s.params.maxPixels → Memory.wf s.buf →
    ∃ t, exec .fgEncode s = .next t ∧ t = { s with buf := t.buf, phase := .gapwait } ∧ Memory.wf t.buf ∧
      (∀ (p j : Nat) (hp : p < cs.length), j < 24 → t.bufByte (24 * p + j) = if cs[p].getLsbD (23 - j) then 0xFE else 0x80) ∧
      ∀ a, 24 * cs.length ≤ a → t.bufByte a = s.bufByte a

/-- R39 at FG_ENCODE: a count above MAX_PIXELS, which FG_CHECK lets through in no run, raises BUF_RANGE. That nothing else
changes, and which index is recorded, are the model's choices (logs 11 and 20). -/
def Obligations.FgEncodeOutOfRangeFaults : Prop :=
  ∀ (s : State) (cs : List Color) (count : Word), s.live → s.phase = .encode → s.cur = some ⟨some cs, count⟩ →
    (cs.length : Int) = sint32 count → s.params.maxPixels < cs.length →
    exec .fgEncode s = .next { s with fault := some ⟨.bufRange, s.hpc⟩ }

/-- R91: at 70 and above, unsigned, the gap is over; below it the step holds, which the model renders as a state that
stands (log 3). -/
def Obligations.FgGapwaitComparesUnsigned : Prop :=
  ∀ s : State, s.live → s.phase = .gapwait →
    (70 ≤ s.timer.toNat → exec .fgGapwait s = .next { s with phase := .arm }) ∧
    (s.timer.toNat < 70 → exec .fgGapwait s = .next s)

/-- R92: FG_ARM's effect, with the length 24 × n. -/
def Obligations.FgArmStartsTheTransfer : Prop :=
  ∀ (s : State) (c : Operands), s.live → s.phase = .arm → s.cur = some c → 1 ≤ sint32 c.count →
    sint32 c.count ≤ (s.params.maxPixels : Int) →
    ∃ len : Nat, (len : Int) = 24 * sint32 c.count ∧ exec .fgArm s = .next
      { s with
        txDone := false, dmaSrc := s.params.bufBase, dmaLen := len, dmaIdx := 0, line := .enabled,
        trace := s.trace ++ [.enable], dmaActive := true, status := some .ok, phase := .return }

/-- R86: FG_RETURN's effect, whatever data byte its event word has (log 9). -/
def Obligations.FgReturnClosesTheCall : Prop :=
  ∀ (s : State) (st : Status) (data : Byte), s.live → s.phase = .return → s.status = some st →
    exec (.fgReturn data) s = .next
      { s with returns := s.returns ++ [st], status := none, cur := none, phase := .nocall }

/-- R95: DMA_SEND puts `BUF[DMA_IDX]` on the wire and counts it; with the line disabled, or at an offset out of range, it
raises the fault, recorded with the field HPC as it is (R103; that index is the model's choice, log 20). Whatever data byte
its event word has (log 9). -/
def Obligations.DmaSendMovesOneByte : Prop :=
  ∀ (s : State) (data : Byte), s.live → s.dmaActive = true → s.dmaIdx < s.dmaLen →
    (s.line = .enabled → s.dmaIdx < 24 * s.params.maxPixels → exec (.dmaSend data) s = .next
      { s with trace := s.trace ++ [.byte (s.bufByte s.dmaIdx)], dmaIdx := s.dmaIdx + 1 }) ∧
    (s.line = .disabled → exec (.dmaSend data) s = .next { s with fault := some ⟨.lineDisabled, s.hpc⟩ }) ∧
    (s.line = .enabled → 24 * s.params.maxPixels ≤ s.dmaIdx → exec (.dmaSend data) s = .next
      { s with fault := some ⟨.bufRange, s.hpc⟩ })

/-- R96: DMA_COMPLETE after the last byte. -/
def Obligations.DmaCompleteSignals : Prop :=
  ∀ s : State, s.live → s.dmaActive = true → s.dmaIdx = s.dmaLen →
    exec .dmaComplete s = .next { s with dmaActive := false, xferDone := true }

/-- R106: the completion handler, in whatever phase the controller is; it changes neither PHASE, CUR, STATUS, BUF, TIMER
nor the DMA fields. -/
def Obligations.IrqCompletionAcknowledges : Prop :=
  ∀ s : State, s.live → s.xferDone = true → s.irqEn = true → exec .irqCompletion s = .next
    { s with xferDone := false, txDone := true, line := .disabled, trace := s.trace ++ [.disable] }

/-- R99: one microsecond, modulo 2^32, in every phase after INIT. -/
def Obligations.TimerTickCounts : Prop :=
  ∀ s : State, s.live → s.ready = true →
    exec .timerTick s = .next
      { s with timer := BitVec.ofNat 32 ((s.timer.toNat + 1) % 2 ^ 32), trace := s.trace ++ [.tick] }

/-- A step that is not enabled takes no step (R12, R13): the state stands, which is the model's rendering of `hold`
(log 3). -/
def Obligations.DisabledStepsHold : Prop :=
  ∀ (i : Instr) (s : State), s.live → guardHolds i s = false → exec i s = .next s

/-- R26: once FAULT or REFUSED is set no step is enabled and the state is not final; the model's step then answers the
recorded reason (log 4). -/
def Obligations.StickyFaultStopsEveryStep : Prop :=
  ∀ (i : Instr) (s : State), (s.fault ≠ none ∨ s.refused ≠ none) →
    s.enables i = false ∧ ¬ s.final ∧
    (∀ f, s.fault = some f → exec i s = .fault f.reason) ∧
    (∀ r, s.fault = none → s.refused = some r → exec i s = .refused r)

/-- From every state that meets the invariants, every enabled step of every agent answers a next state (R13): no reachable
step stops for want of a meaning. -/
def Obligations.EnabledStepsComplete : Prop :=
  ∀ (s : State) (i : Instr), s.Inv → s.enables i = true → ∃ t, exec i s = .next t

/-! ## The step -/

/-- A step runs the decoded operation: HOST's turn runs HOSTPROG[HPC], decoded from the words; an event's turn runs the
step its word names; and the schedule moves on by that turn (log 1). With no command left HOST holds (R29). -/
def Obligations.StepRunsTheDecodedOperation : Prop :=
  ∀ (s : State) (ws : List Word) (prog : List HostCmd) (ts : List Turn), s.hostInput = .words ws → decodeProgram ws = .ok prog →
    (∀ c, s.sched = .host :: ts → prog[s.hpc]? = some c → step s = exec c.toInstr { s with sched := ts }) ∧
    (∀ w e, decodeEvent w = .ok e → s.sched = .internal e :: ts → step s = exec e.toInstr { s with sched := ts }) ∧
    (s.live → s.sched = .host :: ts → prog.length ≤ s.hpc → step s = .next { s with sched := ts }) ∧
    (s.sched = [] → step s = stepTurn (Config.freeTurn s.draws) { s with draws := s.draws + 1 })

/-- R57 and R109 (1): a host program that does not decode is refused as a whole, before any step of any agent. -/
def Obligations.UndecodableProgramStopsBeforeAnyStep : Prop :=
  ∀ (s : State) (ws : List Word) (r : DecodeRefusal), s.hostInput = .words ws → decodeProgram ws = .error r →
    step s = .refused (.ofDecode r)

/-- R64: a program with an ill-formed term is refused as MALFORMED, as a whole. -/
def Obligations.IllFormedTermIsMalformed : Prop :=
  ∀ (s : State) (cs : List HostCmd) (c : HostCmd), s.hostInput = .terms cs → c ∈ cs → c.wellFormed = false →
    step s = .refused .malformed

/-- An operation placed for the next step is the one the next step runs: with any 32-bit word that the decoder reads, in
any state whose own program decodes (log 2). -/
def Obligations.PlacedWordIsRunNext : Prop :=
  ∀ (s : State) (w : Nat) (i : Instr) (prog : List HostCmd), resolveInput s.hostInput = .ok prog →
    decodeTableWord 32 w = some i →
    ∃ input : HostInput, step (s.withFetchWord 32 w) = exec i { s with hostInput := input }

/-! ## Reset and invariants -/

/-- R117: the reset state has R35's fixed values, with OPEN parameters in R9's range, and no agent but HOST has an enabled
step after reset, whatever the host's program. Where R35 says "any" the reset state has opaque constants (logs 6, 7). -/
def Obligations.ResetState : Prop :=
  State.reset.isStart ∧ ∀ s : State, s.isStart → ∀ i, s.enables i = true → i.agent = .host

/-- The invariants hold in every state a run starts from, the reset state among them. -/
def Obligations.InvariantsHoldAtStart : Prop :=
  State.reset.Inv ∧ ∀ s : State, s.isStart → s.Inv

/-- Every step keeps the invariants: the canonical form of the Pulse Buffer, R122 to R125, the operands' ranges, the
bounds of DMA_IDX, DMA_LEN and HPC. -/
def Obligations.EveryStepKeepsTheInvariants : Prop :=
  ∀ s t : State, s.Inv → (step s = .next t ∨ ∃ turn, stepTurn turn s = .next t) → t.Inv

/-- R122, R123 and R124 in every state of every run. -/
def Obligations.TransferFlagsInEveryRun : Prop :=
  ∀ s : State, Reachable s →
    (s.ready = true → (s.txDone = true ↔ s.dmaActive = false ∧ s.xferDone = false) ∧ ¬ (s.dmaActive = true ∧ s.xferDone = true)) ∧
    (s.ready = true → (s.phase = .prepare ∨ s.phase = .encode ∨ s.phase = .gapwait ∨ s.phase = .arm) →
      s.txDone = true ∧ s.dmaActive = false ∧ s.xferDone = false ∧ s.enables .irqCompletion = false) ∧
    (s.dmaActive = true → s.line = .enabled)

/-- R125: while a transfer is in flight its bounds hold, the buffer holds the encoding of colours within the capacity,
FG_ENCODE is not enabled, and no step changes a byte of the buffer. -/
def Obligations.BufferIsExclusiveInFlight : Prop :=
  ∀ s : State, Reachable s → s.dmaActive = true →
    s.dmaIdx ≤ s.dmaLen ∧ s.dmaLen ≤ 24 * s.params.maxPixels ∧ s.enables .fgEncode = false ∧
    (∃ cs : List Color, 1 ≤ cs.length ∧ s.dmaLen = 24 * cs.length ∧
      ∀ i, i < s.dmaLen → some (s.bufByte i) = (encodeColors cs cs.length)[i]?) ∧
    ∀ (turn : Turn) (t : State), stepTurn turn s = .next t → ∀ i, t.bufByte i = s.bufByte i

/-- R103 and R104: in no run is a fault other than NOT_READY raised or a step other than INIT refused; and a step of a run
whose program decodes stops only after a fault or a refusal was recorded. -/
def Obligations.OnlyNotReadyAndReinitInRuns : Prop :=
  ∀ s : State, Reachable s →
    (s.fault = none ∨ ∃ h, s.fault = some ⟨.notReady, h⟩) ∧ (s.refused = none ∨ s.refused = some .reinit) ∧
    ∀ (turn : Turn) (prog : List HostCmd), s.live → resolveInput s.hostInput = .ok prog → ∃ t, stepTurn turn s = .next t

/-- R126: FG_ARM starts a transfer only when none is in flight and the last completion has been handled. -/
def Obligations.AtMostOneTransferInFlight : Prop :=
  ∀ s : State, Reachable s → s.enables .fgArm = true → s.txDone = true ∧ s.dmaActive = false ∧ s.xferDone = false

/-- R33: after INIT the source's three states are disjoint and cover every state of every run. -/
def Obligations.SourceStatesPartition : Prop :=
  ∀ s : State, Reachable s → s.ready = true →
    (s.idle ∨ s.preparing ∨ s.armed) ∧ ¬ (s.idle ∧ s.preparing) ∧ ¬ (s.idle ∧ s.armed) ∧ ¬ (s.preparing ∧ s.armed)

/-! ## The wire -/

/-- Every step keeps what the reset-gap law rests on (R127's derivation). -/
def Obligations.EveryStepKeepsTheGap : Prop :=
  ∀ s t : State, s.Inv → s.GapInv → (step s = .next t ∨ ∃ turn, stepTurn turn s = .next t) → t.GapInv

/-- The reset-gap law (R127): in every run, every Enable has a Disable of its own before it, with at least 70 ticks and no
byte between. -/
def Obligations.ResetGapLaw : Prop := ∀ s : State, Reachable s → gapsKept s.trace

/-- Every step keeps what the frame law rests on (R129's derivation): the frames ended and begun on the wire are those of
the calls that returned OK or are about to. -/
def Obligations.EveryStepKeepsTheFrames : Prop :=
  ∀ (s t : State) (prog : List HostCmd), s.Inv → s.FrameInv prog → resolveInput s.hostInput = .ok prog →
    (step s = .next t ∨ ∃ turn, stepTurn turn s = .next t) → t.FrameInv prog

/-- What the frame law rests on holds in every run: the frames ended and begun on the wire are those of the calls that
returned OK or are about to, and the bytes of the frame being sent are the first DMA_IDX of its buffer. -/
def Obligations.FramesOnTheWireInEveryRun : Prop :=
  ∀ (s : State) (prog : List HostCmd), Reachable s → resolveInput s.hostInput = .ok prog → s.FrameInv prog

/-- The frame law at the end of a run (R129, R28): the wire has carried, in order, exactly `encode(C, n)` of every call
that returned OK, each between its Enable and the next Disable, and every UPDATE has returned one status. -/
def Obligations.FinalFramesAreTheCallsThatReturnedOk : Prop :=
  ∀ (s : State) (prog : List HostCmd), Reachable s → resolveInput s.hostInput = .ok prog → s.final →
    (frameScan s.trace).isOpen = false ∧ s.returns.length = (updatesOf prog).length ∧
    (frameScan s.trace).frames = framesDue (updatesOf prog) s.returns

/-- A run's observation (R120) is the program's own: at a final state RETURNS and the wire's events, ticks left out, are
functions of the program and of MAX_PIXELS alone, whatever order the agents ran in (95_test_vectors.md, section 3). -/
def Obligations.FinalObservationIsTheProgramsOwn : Prop :=
  ∀ (s : State) (prog : List HostCmd), Reachable s → resolveInput s.hostInput = .ok prog → s.final →
    s.returns = (updatesOf prog).map (statusDue s.params.maxPixels) ∧ withoutTicks s.trace = wireDue s.params.maxPixels prog

/-- The drain law (R128): while a call waits in DRAIN with a transfer in flight, no step returns it or moves it on, and
only IRQ_COMPLETION ends the wait. -/
def Obligations.DrainHoldsUntilTheCompletion : Prop :=
  ∀ (s t : State) (turn : Turn), s.phase = .drain → s.txDone = false → stepTurn turn s = .next t →
    t.phase = .drain ∧ t.returns = s.returns ∧ t.cur = s.cur ∧ t.timer.toNat = (if turn = .internal .timerTick ∧ s.ready = true
      then (s.timer.toNat + 1) % 2 ^ 32 else s.timer.toNat) ∧
    (t.txDone = true → turn = .internal .irqCompletion ∧ s.xferDone = true)

/-- Two encodings of the same colours leave the same first bytes whatever the buffer held, and encoding again changes no
byte (R82, R48). -/
def Obligations.EncodingIsPure : Prop :=
  ∀ (s t u v : State), Memory.wf s.buf → Memory.wf u.buf → s.live → u.live → s.phase = .encode → u.phase = .encode →
    s.cur = u.cur → exec .fgEncode s = .next t → exec .fgEncode u = .next v → t.live → v.live →
    (∀ c, s.cur = some c → ∀ i : Nat, (i : Int) < 24 * sint32 c.count → t.bufByte i = v.bufByte i) ∧
    (∀ w, exec .fgEncode { t with phase := .encode } = .next w → ∀ i, w.bufByte i = t.bufByte i)

/-! ## Whole-machine rules -/

/-- R34: a step of an agent writes only the fields the agent may write, and no step writes the parameters or the host's
program. The table is R34's with INIT's write of TIMER (log 15). -/
def Obligations.AgentsWriteOnlyTheirFields : Prop :=
  ∀ (i : Instr) (s t : State), exec i s = .next t →
    (∀ f : Field, f ∉ fieldsWrittenBy i.agent → f.same t s) ∧ t.params = s.params ∧ t.hostInput = s.hostInput ∧ t.sched = s.sched

/-- R16: TX_DONE is set by INIT and IRQ_COMPLETION, cleared by FG_ARM, and changed by no other step. -/
def Obligations.TxDoneWriters : Prop :=
  ∀ (i : Instr) (s t : State), exec i s = .next t → t.txDone ≠ s.txDone →
    (t.txDone = true ∧ (i = .init ∨ i = .irqCompletion)) ∨ (t.txDone = false ∧ i = .fgArm)

/-- R100: the counter only counts up by one, modulo 2^32, at a tick, and is set only by FG_PREPARE, to 0, and by INIT. -/
def Obligations.TimerOnlyCounts : Prop :=
  ∀ (i : Instr) (s t : State), exec i s = .next t → t.timer ≠ s.timer →
    i = .init ∨ (i = .fgPrepare ∧ t.timer = 0) ∨ (i = .timerTick ∧ t.timer.toNat = (s.timer.toNat + 1) % 2 ^ 32)

/-- R93: PHASE moves only along the rows of the controller's table, each by the step the row names; no step of the engine,
the handler or the timer moves it. -/
def Obligations.PhaseFollowsTheTable : Prop :=
  ∀ (i : Instr) (s t : State), exec i s = .next t → t.phase ≠ s.phase →
    (s.phase = .nocall ∧ t.phase = .check ∧ s.ready = true ∧ ∃ colors count, i = .update colors count) ∨
    (s.phase = .check ∧ (t.phase = .return ∨ t.phase = .drain) ∧ i = .fgCheck) ∨
    (s.phase = .drain ∧ t.phase = .prepare ∧ i = .fgDrain ∧ s.txDone = true) ∨
    (s.phase = .prepare ∧ t.phase = .encode ∧ i = .fgPrepare) ∨
    (s.phase = .encode ∧ t.phase = .gapwait ∧ i = .fgEncode) ∨
    (s.phase = .gapwait ∧ t.phase = .arm ∧ i = .fgGapwait ∧ 70 ≤ s.timer.toNat) ∨
    (s.phase = .arm ∧ t.phase = .return ∧ i = .fgArm) ∨
    (s.phase = .return ∧ t.phase = .nocall ∧ ∃ data, i = .fgReturn data)

/-- R120: in a final state the run's observation stands: any step leaves the state final, its returns as they are, and
adds at most a tick to the trace. -/
def Obligations.FinalStatesStayFinal : Prop :=
  ∀ (s t : State) (turn : Turn), s.final → stepTurn turn s = .next t →
    t.final ∧ t.returns = s.returns ∧ (t.trace = s.trace ∨ t.trace = s.trace ++ [.tick])

/-- U25: no state of a run is stuck. R120's words count the gap wait as stuck and U25 does not; the model follows U25
(log 13). -/
def Obligations.NoRunIsStuck : Prop :=
  ∀ (s : State) (prog : List HostCmd), Reachable s → resolveInput s.hostInput = .ok prog → ¬ s.stuck

/-- R91 and R94: TIMER_TICK lifts the gap wait's hold, within 70 ticks. -/
def Obligations.GapWaitEndsWithinSeventyTicks : Prop :=
  ∀ (s : State) (prog : List HostCmd), s.live → s.ready = true → resolveInput s.hostInput = .ok prog → s.phase = .gapwait →
    ∃ (k : Nat) (t : State), k ≤ 70 ∧
      runTurns (List.replicate k (.internal .timerTick) ++ [.internal .fgGapwait]) s = .next t ∧ t.phase = .arm ∧
      t.timer.toNat = s.timer.toNat + k

/-- R132: the drain's hold ends: from every state that meets the invariants, the engine's remaining bytes, its completion
and the handler make TX_DONE true. -/
def Obligations.DrainHoldCanEnd : Prop :=
  ∀ (s : State) (prog : List HostCmd) (data : Byte), s.Inv → s.live → s.ready = true → resolveInput s.hostInput = .ok prog →
    s.phase = .drain →
    ∃ t, runTurns (List.replicate (s.dmaLen - s.dmaIdx) (.internal (.dmaSend data)) ++
        [.internal .dmaComplete, .internal .irqCompletion, .internal .fgDrain]) s = .next t ∧
      t.phase = .prepare ∧ t.txDone = true ∧ t.dmaActive = false ∧ t.xferDone = false

/-- R131 and R119: because the counter wraps, a run is admitted that is fair and never ends: FG_GAPWAIT, which never stays
enabled, is never taken. So R119's weak fairness alone does not make every run end. Fairness is as the model defines it
(log 16). -/
def Obligations.WrapAdmitsAFairRunThatNeverEnds : Prop :=
  ∃ (state : Nat → State) (turn : Nat → Turn), IsRun state turn ∧ IsFair state turn ∧
    ∀ k, (state k).live ∧ ¬ (state k).final
end

