-- ==== Sys2Proof/Laws/Codec.lean ====
section
/-! SUPPORT. What the field readers of the decoder read from the words the encoder writes. -/

namespace Sys2Proof

@[simp] theorem opOf_commandWord (op : Byte) (b : Bool) : opOf (commandWord op b) = op := by
  apply BitVec.eq_of_getLsbD_eq
  intro i hi
  simp only [opOf, commandWord, BitVec.getLsbD_extractLsb', BitVec.getLsbD_append]
  have h1 : ¬ 24 + i < 1 := by omega
  have h2 : ¬ 24 + i - 1 < 23 := by omega
  have h3 : 24 + i - 1 - 23 = i := by omega
  rw [if_neg h1, if_neg h2, h3, decide_eq_true hi, Bool.true_and]

@[simp] theorem rsvdOf_commandWord (op : Byte) (b : Bool) : rsvdOf (commandWord op b) = 0 := by
  apply BitVec.eq_of_getLsbD_eq
  intro i hi
  simp only [rsvdOf, commandWord, BitVec.getLsbD_extractLsb', BitVec.getLsbD_append]
  have h1 : ¬ 1 + i < 1 := by omega
  have h2 : 1 + i - 1 < 23 := by omega
  rw [if_neg h1, if_pos h2]
  simp

@[simp] theorem cnullOf_commandWord (op : Byte) (b : Bool) : cnullOf (commandWord op b) = b := by
  rw [cnullOf, commandWord, BitVec.getLsbD_append, if_pos (by omega)]
  cases b <;> rfl

@[simp] theorem colorOf_commandWord (op : Byte) : colorOf (commandWord op false) = 0 := by
  apply BitVec.eq_of_getLsbD_eq
  intro i hi
  simp only [colorOf, commandWord, BitVec.getLsbD_extractLsb', BitVec.getLsbD_append]
  by_cases h1 : i < 1
  · simp [h1]
  · have h2 : i - 1 < 23 := by omega
    simp [hi, h1, h2]

@[simp] theorem colorOf_colorWord (c : Color) : colorOf (colorWord c) = c := by
  apply BitVec.eq_of_getLsbD_eq
  intro i hi
  rw [colorOf, colorWord, BitVec.getLsbD_extractLsb', BitVec.getLsbD_append, if_pos (by omega)]
  simp [hi]

@[simp] theorem opOf_eventWord (code data : Byte) : opOf (eventWord code data) = code := by
  apply BitVec.eq_of_getLsbD_eq
  intro i hi
  simp only [opOf, eventWord, BitVec.getLsbD_extractLsb', BitVec.getLsbD_append]
  have h1 : ¬ 24 + i < 8 := by omega
  have h2 : ¬ 24 + i - 8 < 16 := by omega
  have h3 : 24 + i - 8 - 16 = i := by omega
  rw [if_neg h1, if_neg h2, h3, decide_eq_true hi, Bool.true_and]

@[simp] theorem eventZerosOf_eventWord (code data : Byte) : eventZerosOf (eventWord code data) = 0 := by
  apply BitVec.eq_of_getLsbD_eq
  intro i hi
  simp only [eventZerosOf, eventWord, BitVec.getLsbD_extractLsb', BitVec.getLsbD_append]
  have h1 : ¬ 8 + i < 8 := by omega
  have h2 : 8 + i - 8 < 16 := by omega
  rw [if_neg h1, if_pos h2]
  simp

@[simp] theorem eventDataOf_eventWord (code data : Byte) : eventDataOf (eventWord code data) = data := by
  apply BitVec.eq_of_getLsbD_eq
  intro i hi
  rw [eventDataOf, eventWord, BitVec.getLsbD_extractLsb', BitVec.getLsbD_append, if_pos (by omega)]
  simp [hi]

/-- The table of R67 read both ways. -/
theorem eventOfCode_code (e : Event) : eventOfCode e.code e.data = some e := by
  cases e <;> rfl

/-- An event word is read back as its event. -/
theorem decodeEvent_encode (e : Event) : decodeEvent e.encode = .ok e := by
  simp [decodeEvent, Event.encode, eventOfCode_code]

/-- A command takes at least its command word (R59). -/
theorem decodeCommand_rest_lt {ws rest : List Word} {c : HostCmd} (h : decodeCommand ws = .ok (c, rest)) :
    rest.length < ws.length := by
  cases ws with
  | nil => simp [decodeCommand] at h
  | cons w ws =>
    simp only [decodeCommand] at h
    split at h
    · split at h
      · cases h; simp
      · cases h
    · split at h
      · split at h
        · cases ws with
          | nil => simp at h
          | cons w1 ws =>
            simp only at h
            split at h
            · cases h
            · cases h; simp; omega
        · cases h
      · cases h

/-- More fuel than words changes nothing. -/
theorem decodeProgramFuel_eq {n m : Nat} {ws : List Word} (hn : ws.length ≤ n) (hm : ws.length ≤ m) :
    decodeProgramFuel n ws = decodeProgramFuel m ws := by
  induction n generalizing m ws with
  | zero =>
    have : ws = [] := List.length_eq_zero_iff.1 (by omega)
    subst this; cases m <;> rfl
  | succ n ih =>
    cases ws with
    | nil => cases m <;> rfl
    | cons w ws =>
      cases m with
      | zero => simp at hm
      | succ m =>
        simp only [decodeProgramFuel]
        cases hd : decodeCommand (w :: ws) with
        | error r => rfl
        | ok p =>
          obtain ⟨c, rest⟩ := p
          have := decodeCommand_rest_lt hd
          simp only [List.length_cons] at *
          simp only [ih (m := m) (ws := rest) (by omega) (by omega)]

/-- The loop of R65, unrolled once. -/
theorem decodeProgram_cons (w : Word) (ws : List Word) : decodeProgram (w :: ws) =
    match decodeCommand (w :: ws) with
    | .error r => .error r
    | .ok (c, rest) =>
      match decodeProgram rest with
      | .error r => .error r
      | .ok cs => .ok (c :: cs) := by
  simp only [decodeProgram, List.length_cons, decodeProgramFuel]
  cases hd : decodeCommand (w :: ws) with
  | error r => rfl
  | ok p =>
    obtain ⟨c, rest⟩ := p
    have := decodeCommand_rest_lt hd
    simp only [List.length_cons] at this
    simp only [decodeProgramFuel_eq (n := ws.length) (m := rest.length) (ws := rest) (by omega) (by omega)] <;>
      cases decodeProgramFuel rest.length rest <;> rfl

end Sys2Proof
end

