-- ==== Sys2Proof/Laws/State.lean ====
section
/-! SUPPORT. What each named update of the state does to each field, by rfl, so that no proof unfolds an update. -/

namespace Sys2Proof.Machine

variable (s : State)

@[simp] theorem State.raise_ready (f : Fault) : (s.raise f).ready = s.ready := rfl
@[simp] theorem State.raise_txDone (f : Fault) : (s.raise f).txDone = s.txDone := rfl
@[simp] theorem State.raise_phase (f : Fault) : (s.raise f).phase = s.phase := rfl
@[simp] theorem State.raise_cur (f : Fault) : (s.raise f).cur = s.cur := rfl
@[simp] theorem State.raise_status (f : Fault) : (s.raise f).status = s.status := rfl
@[simp] theorem State.raise_line (f : Fault) : (s.raise f).line = s.line := rfl
@[simp] theorem State.raise_timer (f : Fault) : (s.raise f).timer = s.timer := rfl
@[simp] theorem State.raise_dmaActive (f : Fault) : (s.raise f).dmaActive = s.dmaActive := rfl
@[simp] theorem State.raise_dmaSrc (f : Fault) : (s.raise f).dmaSrc = s.dmaSrc := rfl
@[simp] theorem State.raise_dmaLen (f : Fault) : (s.raise f).dmaLen = s.dmaLen := rfl
@[simp] theorem State.raise_dmaIdx (f : Fault) : (s.raise f).dmaIdx = s.dmaIdx := rfl
@[simp] theorem State.raise_xferDone (f : Fault) : (s.raise f).xferDone = s.xferDone := rfl
@[simp] theorem State.raise_irqEn (f : Fault) : (s.raise f).irqEn = s.irqEn := rfl
@[simp] theorem State.raise_buf (f : Fault) : (s.raise f).buf = s.buf := rfl
@[simp] theorem State.raise_fault (f : Fault) : (s.raise f).fault = some ⟨f, s.hpc⟩ := rfl
@[simp] theorem State.raise_refused (f : Fault) : (s.raise f).refused = s.refused := rfl
@[simp] theorem State.raise_trace (f : Fault) : (s.raise f).trace = s.trace := rfl
@[simp] theorem State.raise_returns (f : Fault) : (s.raise f).returns = s.returns := rfl
@[simp] theorem State.raise_hpc (f : Fault) : (s.raise f).hpc = s.hpc := rfl
@[simp] theorem State.raise_params (f : Fault) : (s.raise f).params = s.params := rfl
@[simp] theorem State.raise_hostInput (f : Fault) : (s.raise f).hostInput = s.hostInput := rfl
@[simp] theorem State.raise_sched (f : Fault) : (s.raise f).sched = s.sched := rfl
@[simp] theorem State.raise_draws (f : Fault) : (s.raise f).draws = s.draws := rfl

@[simp] theorem State.refuse_ready (r : Refusal) : (s.refuse r).ready = s.ready := rfl
@[simp] theorem State.refuse_txDone (r : Refusal) : (s.refuse r).txDone = s.txDone := rfl
@[simp] theorem State.refuse_phase (r : Refusal) : (s.refuse r).phase = s.phase := rfl
@[simp] theorem State.refuse_cur (r : Refusal) : (s.refuse r).cur = s.cur := rfl
@[simp] theorem State.refuse_status (r : Refusal) : (s.refuse r).status = s.status := rfl
@[simp] theorem State.refuse_line (r : Refusal) : (s.refuse r).line = s.line := rfl
@[simp] theorem State.refuse_timer (r : Refusal) : (s.refuse r).timer = s.timer := rfl
@[simp] theorem State.refuse_dmaActive (r : Refusal) : (s.refuse r).dmaActive = s.dmaActive := rfl
@[simp] theorem State.refuse_dmaSrc (r : Refusal) : (s.refuse r).dmaSrc = s.dmaSrc := rfl
@[simp] theorem State.refuse_dmaLen (r : Refusal) : (s.refuse r).dmaLen = s.dmaLen := rfl
@[simp] theorem State.refuse_dmaIdx (r : Refusal) : (s.refuse r).dmaIdx = s.dmaIdx := rfl
@[simp] theorem State.refuse_xferDone (r : Refusal) : (s.refuse r).xferDone = s.xferDone := rfl
@[simp] theorem State.refuse_irqEn (r : Refusal) : (s.refuse r).irqEn = s.irqEn := rfl
@[simp] theorem State.refuse_buf (r : Refusal) : (s.refuse r).buf = s.buf := rfl
@[simp] theorem State.refuse_fault (r : Refusal) : (s.refuse r).fault = s.fault := rfl
@[simp] theorem State.refuse_refused (r : Refusal) : (s.refuse r).refused = some r := rfl
@[simp] theorem State.refuse_trace (r : Refusal) : (s.refuse r).trace = s.trace := rfl
@[simp] theorem State.refuse_returns (r : Refusal) : (s.refuse r).returns = s.returns := rfl
@[simp] theorem State.refuse_hpc (r : Refusal) : (s.refuse r).hpc = s.hpc := rfl
@[simp] theorem State.refuse_params (r : Refusal) : (s.refuse r).params = s.params := rfl
@[simp] theorem State.refuse_hostInput (r : Refusal) : (s.refuse r).hostInput = s.hostInput := rfl
@[simp] theorem State.refuse_sched (r : Refusal) : (s.refuse r).sched = s.sched := rfl
@[simp] theorem State.refuse_draws (r : Refusal) : (s.refuse r).draws = s.draws := rfl

@[simp] theorem State.emit_ready (e : WireEvent) : (s.emit e).ready = s.ready := rfl
@[simp] theorem State.emit_txDone (e : WireEvent) : (s.emit e).txDone = s.txDone := rfl
@[simp] theorem State.emit_phase (e : WireEvent) : (s.emit e).phase = s.phase := rfl
@[simp] theorem State.emit_cur (e : WireEvent) : (s.emit e).cur = s.cur := rfl
@[simp] theorem State.emit_status (e : WireEvent) : (s.emit e).status = s.status := rfl
@[simp] theorem State.emit_line (e : WireEvent) : (s.emit e).line = s.line := rfl
@[simp] theorem State.emit_timer (e : WireEvent) : (s.emit e).timer = s.timer := rfl
@[simp] theorem State.emit_dmaActive (e : WireEvent) : (s.emit e).dmaActive = s.dmaActive := rfl
@[simp] theorem State.emit_dmaSrc (e : WireEvent) : (s.emit e).dmaSrc = s.dmaSrc := rfl
@[simp] theorem State.emit_dmaLen (e : WireEvent) : (s.emit e).dmaLen = s.dmaLen := rfl
@[simp] theorem State.emit_dmaIdx (e : WireEvent) : (s.emit e).dmaIdx = s.dmaIdx := rfl
@[simp] theorem State.emit_xferDone (e : WireEvent) : (s.emit e).xferDone = s.xferDone := rfl
@[simp] theorem State.emit_irqEn (e : WireEvent) : (s.emit e).irqEn = s.irqEn := rfl
@[simp] theorem State.emit_buf (e : WireEvent) : (s.emit e).buf = s.buf := rfl
@[simp] theorem State.emit_fault (e : WireEvent) : (s.emit e).fault = s.fault := rfl
@[simp] theorem State.emit_refused (e : WireEvent) : (s.emit e).refused = s.refused := rfl
@[simp] theorem State.emit_trace (e : WireEvent) : (s.emit e).trace = s.trace ++ [e] := rfl
@[simp] theorem State.emit_returns (e : WireEvent) : (s.emit e).returns = s.returns := rfl
@[simp] theorem State.emit_hpc (e : WireEvent) : (s.emit e).hpc = s.hpc := rfl
@[simp] theorem State.emit_params (e : WireEvent) : (s.emit e).params = s.params := rfl
@[simp] theorem State.emit_hostInput (e : WireEvent) : (s.emit e).hostInput = s.hostInput := rfl
@[simp] theorem State.emit_sched (e : WireEvent) : (s.emit e).sched = s.sched := rfl
@[simp] theorem State.emit_draws (e : WireEvent) : (s.emit e).draws = s.draws := rfl

@[simp] theorem State.drive_ready (l : Line) : (s.drive l).ready = s.ready := rfl
@[simp] theorem State.drive_txDone (l : Line) : (s.drive l).txDone = s.txDone := rfl
@[simp] theorem State.drive_phase (l : Line) : (s.drive l).phase = s.phase := rfl
@[simp] theorem State.drive_cur (l : Line) : (s.drive l).cur = s.cur := rfl
@[simp] theorem State.drive_status (l : Line) : (s.drive l).status = s.status := rfl
@[simp] theorem State.drive_line (l : Line) : (s.drive l).line = l := rfl
@[simp] theorem State.drive_timer (l : Line) : (s.drive l).timer = s.timer := rfl
@[simp] theorem State.drive_dmaActive (l : Line) : (s.drive l).dmaActive = s.dmaActive := rfl
@[simp] theorem State.drive_dmaSrc (l : Line) : (s.drive l).dmaSrc = s.dmaSrc := rfl
@[simp] theorem State.drive_dmaLen (l : Line) : (s.drive l).dmaLen = s.dmaLen := rfl
@[simp] theorem State.drive_dmaIdx (l : Line) : (s.drive l).dmaIdx = s.dmaIdx := rfl
@[simp] theorem State.drive_xferDone (l : Line) : (s.drive l).xferDone = s.xferDone := rfl
@[simp] theorem State.drive_irqEn (l : Line) : (s.drive l).irqEn = s.irqEn := rfl
@[simp] theorem State.drive_buf (l : Line) : (s.drive l).buf = s.buf := rfl
@[simp] theorem State.drive_fault (l : Line) : (s.drive l).fault = s.fault := rfl
@[simp] theorem State.drive_refused (l : Line) : (s.drive l).refused = s.refused := rfl
@[simp] theorem State.drive_trace (l : Line) : (s.drive l).trace = s.trace ++ [l.event] := rfl
@[simp] theorem State.drive_returns (l : Line) : (s.drive l).returns = s.returns := rfl
@[simp] theorem State.drive_hpc (l : Line) : (s.drive l).hpc = s.hpc := rfl
@[simp] theorem State.drive_params (l : Line) : (s.drive l).params = s.params := rfl
@[simp] theorem State.drive_hostInput (l : Line) : (s.drive l).hostInput = s.hostInput := rfl
@[simp] theorem State.drive_sched (l : Line) : (s.drive l).sched = s.sched := rfl
@[simp] theorem State.drive_draws (l : Line) : (s.drive l).draws = s.draws := rfl

@[simp] theorem State.initFlags_ready : (s.initFlags).ready = true := rfl
@[simp] theorem State.initFlags_txDone : (s.initFlags).txDone = true := rfl
@[simp] theorem State.initFlags_phase : (s.initFlags).phase = s.phase := rfl
@[simp] theorem State.initFlags_cur : (s.initFlags).cur = s.cur := rfl
@[simp] theorem State.initFlags_status : (s.initFlags).status = s.status := rfl
@[simp] theorem State.initFlags_line : (s.initFlags).line = s.line := rfl
@[simp] theorem State.initFlags_timer : (s.initFlags).timer = s.timer := rfl
@[simp] theorem State.initFlags_dmaActive : (s.initFlags).dmaActive = false := rfl
@[simp] theorem State.initFlags_dmaSrc : (s.initFlags).dmaSrc = s.dmaSrc := rfl
@[simp] theorem State.initFlags_dmaLen : (s.initFlags).dmaLen = s.dmaLen := rfl
@[simp] theorem State.initFlags_dmaIdx : (s.initFlags).dmaIdx = s.dmaIdx := rfl
@[simp] theorem State.initFlags_xferDone : (s.initFlags).xferDone = false := rfl
@[simp] theorem State.initFlags_irqEn : (s.initFlags).irqEn = true := rfl
@[simp] theorem State.initFlags_buf : (s.initFlags).buf = s.buf := rfl
@[simp] theorem State.initFlags_fault : (s.initFlags).fault = s.fault := rfl
@[simp] theorem State.initFlags_refused : (s.initFlags).refused = s.refused := rfl
@[simp] theorem State.initFlags_trace : (s.initFlags).trace = s.trace := rfl
@[simp] theorem State.initFlags_returns : (s.initFlags).returns = s.returns := rfl
@[simp] theorem State.initFlags_hpc : (s.initFlags).hpc = s.hpc := rfl
@[simp] theorem State.initFlags_params : (s.initFlags).params = s.params := rfl
@[simp] theorem State.initFlags_hostInput : (s.initFlags).hostInput = s.hostInput := rfl
@[simp] theorem State.initFlags_sched : (s.initFlags).sched = s.sched := rfl
@[simp] theorem State.initFlags_draws : (s.initFlags).draws = s.draws := rfl

@[simp] theorem State.armFlags_ready : (s.armFlags).ready = s.ready := rfl
@[simp] theorem State.armFlags_txDone : (s.armFlags).txDone = false := rfl
@[simp] theorem State.armFlags_phase : (s.armFlags).phase = s.phase := rfl
@[simp] theorem State.armFlags_cur : (s.armFlags).cur = s.cur := rfl
@[simp] theorem State.armFlags_status : (s.armFlags).status = s.status := rfl
@[simp] theorem State.armFlags_line : (s.armFlags).line = s.line := rfl
@[simp] theorem State.armFlags_timer : (s.armFlags).timer = s.timer := rfl
@[simp] theorem State.armFlags_dmaActive : (s.armFlags).dmaActive = true := rfl
@[simp] theorem State.armFlags_dmaSrc : (s.armFlags).dmaSrc = s.dmaSrc := rfl
@[simp] theorem State.armFlags_dmaLen : (s.armFlags).dmaLen = s.dmaLen := rfl
@[simp] theorem State.armFlags_dmaIdx : (s.armFlags).dmaIdx = s.dmaIdx := rfl
@[simp] theorem State.armFlags_xferDone : (s.armFlags).xferDone = s.xferDone := rfl
@[simp] theorem State.armFlags_irqEn : (s.armFlags).irqEn = s.irqEn := rfl
@[simp] theorem State.armFlags_buf : (s.armFlags).buf = s.buf := rfl
@[simp] theorem State.armFlags_fault : (s.armFlags).fault = s.fault := rfl
@[simp] theorem State.armFlags_refused : (s.armFlags).refused = s.refused := rfl
@[simp] theorem State.armFlags_trace : (s.armFlags).trace = s.trace := rfl
@[simp] theorem State.armFlags_returns : (s.armFlags).returns = s.returns := rfl
@[simp] theorem State.armFlags_hpc : (s.armFlags).hpc = s.hpc := rfl
@[simp] theorem State.armFlags_params : (s.armFlags).params = s.params := rfl
@[simp] theorem State.armFlags_hostInput : (s.armFlags).hostInput = s.hostInput := rfl
@[simp] theorem State.armFlags_sched : (s.armFlags).sched = s.sched := rfl
@[simp] theorem State.armFlags_draws : (s.armFlags).draws = s.draws := rfl

@[simp] theorem State.completeFlags_ready : (s.completeFlags).ready = s.ready := rfl
@[simp] theorem State.completeFlags_txDone : (s.completeFlags).txDone = s.txDone := rfl
@[simp] theorem State.completeFlags_phase : (s.completeFlags).phase = s.phase := rfl
@[simp] theorem State.completeFlags_cur : (s.completeFlags).cur = s.cur := rfl
@[simp] theorem State.completeFlags_status : (s.completeFlags).status = s.status := rfl
@[simp] theorem State.completeFlags_line : (s.completeFlags).line = s.line := rfl
@[simp] theorem State.completeFlags_timer : (s.completeFlags).timer = s.timer := rfl
@[simp] theorem State.completeFlags_dmaActive : (s.completeFlags).dmaActive = false := rfl
@[simp] theorem State.completeFlags_dmaSrc : (s.completeFlags).dmaSrc = s.dmaSrc := rfl
@[simp] theorem State.completeFlags_dmaLen : (s.completeFlags).dmaLen = s.dmaLen := rfl
@[simp] theorem State.completeFlags_dmaIdx : (s.completeFlags).dmaIdx = s.dmaIdx := rfl
@[simp] theorem State.completeFlags_xferDone : (s.completeFlags).xferDone = true := rfl
@[simp] theorem State.completeFlags_irqEn : (s.completeFlags).irqEn = s.irqEn := rfl
@[simp] theorem State.completeFlags_buf : (s.completeFlags).buf = s.buf := rfl
@[simp] theorem State.completeFlags_fault : (s.completeFlags).fault = s.fault := rfl
@[simp] theorem State.completeFlags_refused : (s.completeFlags).refused = s.refused := rfl
@[simp] theorem State.completeFlags_trace : (s.completeFlags).trace = s.trace := rfl
@[simp] theorem State.completeFlags_returns : (s.completeFlags).returns = s.returns := rfl
@[simp] theorem State.completeFlags_hpc : (s.completeFlags).hpc = s.hpc := rfl
@[simp] theorem State.completeFlags_params : (s.completeFlags).params = s.params := rfl
@[simp] theorem State.completeFlags_hostInput : (s.completeFlags).hostInput = s.hostInput := rfl
@[simp] theorem State.completeFlags_sched : (s.completeFlags).sched = s.sched := rfl
@[simp] theorem State.completeFlags_draws : (s.completeFlags).draws = s.draws := rfl

@[simp] theorem State.ackFlags_ready : (s.ackFlags).ready = s.ready := rfl
@[simp] theorem State.ackFlags_txDone : (s.ackFlags).txDone = true := rfl
@[simp] theorem State.ackFlags_phase : (s.ackFlags).phase = s.phase := rfl
@[simp] theorem State.ackFlags_cur : (s.ackFlags).cur = s.cur := rfl
@[simp] theorem State.ackFlags_status : (s.ackFlags).status = s.status := rfl
@[simp] theorem State.ackFlags_line : (s.ackFlags).line = s.line := rfl
@[simp] theorem State.ackFlags_timer : (s.ackFlags).timer = s.timer := rfl
@[simp] theorem State.ackFlags_dmaActive : (s.ackFlags).dmaActive = s.dmaActive := rfl
@[simp] theorem State.ackFlags_dmaSrc : (s.ackFlags).dmaSrc = s.dmaSrc := rfl
@[simp] theorem State.ackFlags_dmaLen : (s.ackFlags).dmaLen = s.dmaLen := rfl
@[simp] theorem State.ackFlags_dmaIdx : (s.ackFlags).dmaIdx = s.dmaIdx := rfl
@[simp] theorem State.ackFlags_xferDone : (s.ackFlags).xferDone = false := rfl
@[simp] theorem State.ackFlags_irqEn : (s.ackFlags).irqEn = s.irqEn := rfl
@[simp] theorem State.ackFlags_buf : (s.ackFlags).buf = s.buf := rfl
@[simp] theorem State.ackFlags_fault : (s.ackFlags).fault = s.fault := rfl
@[simp] theorem State.ackFlags_refused : (s.ackFlags).refused = s.refused := rfl
@[simp] theorem State.ackFlags_trace : (s.ackFlags).trace = s.trace := rfl
@[simp] theorem State.ackFlags_returns : (s.ackFlags).returns = s.returns := rfl
@[simp] theorem State.ackFlags_hpc : (s.ackFlags).hpc = s.hpc := rfl
@[simp] theorem State.ackFlags_params : (s.ackFlags).params = s.params := rfl
@[simp] theorem State.ackFlags_hostInput : (s.ackFlags).hostInput = s.hostInput := rfl
@[simp] theorem State.ackFlags_sched : (s.ackFlags).sched = s.sched := rfl
@[simp] theorem State.ackFlags_draws : (s.ackFlags).draws = s.draws := rfl

@[simp] theorem State.withBuf_ready (m : Memory) : (s.withBuf m).ready = s.ready := rfl
@[simp] theorem State.withBuf_txDone (m : Memory) : (s.withBuf m).txDone = s.txDone := rfl
@[simp] theorem State.withBuf_phase (m : Memory) : (s.withBuf m).phase = s.phase := rfl
@[simp] theorem State.withBuf_cur (m : Memory) : (s.withBuf m).cur = s.cur := rfl
@[simp] theorem State.withBuf_status (m : Memory) : (s.withBuf m).status = s.status := rfl
@[simp] theorem State.withBuf_line (m : Memory) : (s.withBuf m).line = s.line := rfl
@[simp] theorem State.withBuf_timer (m : Memory) : (s.withBuf m).timer = s.timer := rfl
@[simp] theorem State.withBuf_dmaActive (m : Memory) : (s.withBuf m).dmaActive = s.dmaActive := rfl
@[simp] theorem State.withBuf_dmaSrc (m : Memory) : (s.withBuf m).dmaSrc = s.dmaSrc := rfl
@[simp] theorem State.withBuf_dmaLen (m : Memory) : (s.withBuf m).dmaLen = s.dmaLen := rfl
@[simp] theorem State.withBuf_dmaIdx (m : Memory) : (s.withBuf m).dmaIdx = s.dmaIdx := rfl
@[simp] theorem State.withBuf_xferDone (m : Memory) : (s.withBuf m).xferDone = s.xferDone := rfl
@[simp] theorem State.withBuf_irqEn (m : Memory) : (s.withBuf m).irqEn = s.irqEn := rfl
@[simp] theorem State.withBuf_buf (m : Memory) : (s.withBuf m).buf = m := rfl
@[simp] theorem State.withBuf_fault (m : Memory) : (s.withBuf m).fault = s.fault := rfl
@[simp] theorem State.withBuf_refused (m : Memory) : (s.withBuf m).refused = s.refused := rfl
@[simp] theorem State.withBuf_trace (m : Memory) : (s.withBuf m).trace = s.trace := rfl
@[simp] theorem State.withBuf_returns (m : Memory) : (s.withBuf m).returns = s.returns := rfl
@[simp] theorem State.withBuf_hpc (m : Memory) : (s.withBuf m).hpc = s.hpc := rfl
@[simp] theorem State.withBuf_params (m : Memory) : (s.withBuf m).params = s.params := rfl
@[simp] theorem State.withBuf_hostInput (m : Memory) : (s.withBuf m).hostInput = s.hostInput := rfl
@[simp] theorem State.withBuf_sched (m : Memory) : (s.withBuf m).sched = s.sched := rfl
@[simp] theorem State.withBuf_draws (m : Memory) : (s.withBuf m).draws = s.draws := rfl
@[simp] theorem State.withBuf_bufLen (m : Memory) : (s.withBuf m).bufLen = s.bufLen := rfl
@[simp] theorem State.withBuf_withBuf (m n : Memory) : (s.withBuf m).withBuf n = s.withBuf n := rfl

theorem State.afterTurn_eq : s.afterTurn = (if s.sched = [] then { s with draws := s.draws + 1 } else { s with sched := s.sched.tail }) := by
  unfold State.afterTurn; cases h : s.sched <;> simp

@[simp] theorem State.afterTurn_ready : s.afterTurn.ready = s.ready := by unfold State.afterTurn; split <;> rfl
@[simp] theorem State.afterTurn_txDone : s.afterTurn.txDone = s.txDone := by unfold State.afterTurn; split <;> rfl
@[simp] theorem State.afterTurn_phase : s.afterTurn.phase = s.phase := by unfold State.afterTurn; split <;> rfl
@[simp] theorem State.afterTurn_cur : s.afterTurn.cur = s.cur := by unfold State.afterTurn; split <;> rfl
@[simp] theorem State.afterTurn_status : s.afterTurn.status = s.status := by unfold State.afterTurn; split <;> rfl
@[simp] theorem State.afterTurn_line : s.afterTurn.line = s.line := by unfold State.afterTurn; split <;> rfl
@[simp] theorem State.afterTurn_timer : s.afterTurn.timer = s.timer := by unfold State.afterTurn; split <;> rfl
@[simp] theorem State.afterTurn_dmaActive : s.afterTurn.dmaActive = s.dmaActive := by unfold State.afterTurn; split <;> rfl
@[simp] theorem State.afterTurn_dmaSrc : s.afterTurn.dmaSrc = s.dmaSrc := by unfold State.afterTurn; split <;> rfl
@[simp] theorem State.afterTurn_dmaLen : s.afterTurn.dmaLen = s.dmaLen := by unfold State.afterTurn; split <;> rfl
@[simp] theorem State.afterTurn_dmaIdx : s.afterTurn.dmaIdx = s.dmaIdx := by unfold State.afterTurn; split <;> rfl
@[simp] theorem State.afterTurn_xferDone : s.afterTurn.xferDone = s.xferDone := by unfold State.afterTurn; split <;> rfl
@[simp] theorem State.afterTurn_irqEn : s.afterTurn.irqEn = s.irqEn := by unfold State.afterTurn; split <;> rfl
@[simp] theorem State.afterTurn_buf : s.afterTurn.buf = s.buf := by unfold State.afterTurn; split <;> rfl
@[simp] theorem State.afterTurn_fault : s.afterTurn.fault = s.fault := by unfold State.afterTurn; split <;> rfl
@[simp] theorem State.afterTurn_refused : s.afterTurn.refused = s.refused := by unfold State.afterTurn; split <;> rfl
@[simp] theorem State.afterTurn_trace : s.afterTurn.trace = s.trace := by unfold State.afterTurn; split <;> rfl
@[simp] theorem State.afterTurn_returns : s.afterTurn.returns = s.returns := by unfold State.afterTurn; split <;> rfl
@[simp] theorem State.afterTurn_hpc : s.afterTurn.hpc = s.hpc := by unfold State.afterTurn; split <;> rfl
@[simp] theorem State.afterTurn_params : s.afterTurn.params = s.params := by unfold State.afterTurn; split <;> rfl
@[simp] theorem State.afterTurn_hostInput : s.afterTurn.hostInput = s.hostInput := by unfold State.afterTurn; split <;> rfl

@[simp] theorem State.raise_live (f : Fault) : ¬ (s.raise f).live := by simp [State.live]
@[simp] theorem State.refuse_live (r : Refusal) : ¬ (s.refuse r).live := by simp [State.live]
@[simp] theorem State.afterTurn_bufLen : s.afterTurn.bufLen = s.bufLen := by simp [State.bufLen]
@[simp] theorem State.afterTurn_bufByte (i : Nat) : s.afterTurn.bufByte i = s.bufByte i := by simp [State.bufByte]

end Sys2Proof.Machine
end

