-- ==== Sys2Proof/Laws/Ops.lean ====
section
/-! SUPPORT. What the shared operations can do: the enabled step, the Pulse Buffer's reads and writes, consecutive
writes, the pure functions of the Encoder. -/

namespace Sys2Proof.Machine

/-! ## Enabled, held, stopped -/

theorem guarded_enabled {s : State} {g : Prop} [Decidable g] {e : Out} (hl : s.live) (hg : g) : guarded s g e = e := by
  simp [guarded, hl.1, hl.2, hg]

theorem guarded_held {s : State} {g : Prop} [Decidable g] {e : Out} (hl : s.live) (hg : ¬ g) : guarded s g e = .next s := by
  simp [guarded, hl.1, hl.2, hg]

/-- All that a guarded step can answer a next state by: its effect where the guard holds, or holding. -/
theorem guarded_next {s t : State} {g : Prop} [Decidable g] {e : Out} (h : guarded s g e = .next t) :
    s.live ∧ ((g ∧ e = .next t) ∨ (¬ g ∧ t = s)) := by
  unfold guarded at h
  split at h
  · cases h
  · cases h
  · refine ⟨⟨‹_›, ‹_›⟩, ?_⟩
    split at h
    · exact .inl ⟨‹_›, h⟩
    · cases h; exact .inr ⟨‹_›, rfl⟩

theorem hold_next {s t : State} (h : hold s = .next t) : s.live ∧ t = s := by
  obtain ⟨hl, ⟨hf, -⟩ | ⟨-, rfl⟩⟩ := guarded_next h
  · exact hf.elim
  · exact ⟨hl, rfl⟩

/-! ## The Pulse Buffer -/

@[simp] theorem Memory.read?_write (m : Memory) (i j : Nat) (v : Byte) (hm : Memory.wf m) :
    (Memory.write m i v).read? j = if i = j then some v else m.read? j := by
  induction m with
  | nil => simp [Memory.write, Memory.read?]
  | cons c m ih =>
    obtain ⟨a, x⟩ := c
    rw [Memory.wf, List.pairwise_cons] at hm
    simp only [Memory.write]
    split
    · simp [Memory.read?]
    · split
      · next h => subst h; by_cases hij : i = j <;> simp [Memory.read?, hij]
      · next h1 h2 =>
        simp only [Memory.read?, ih hm.2]
        by_cases haj : a = j
        · have : i ≠ j := by omega
          simp [haj, this]
        · simp [haj]

/-- What is listed after a write was listed before or is the byte written. -/
theorem Memory.mem_write {m : Memory} {i : Nat} {v : Byte} {c : Host.Cell} (h : c ∈ Memory.write m i v) :
    c = (i, v) ∨ c ∈ m := by
  induction m with
  | nil => simpa [Memory.write] using h
  | cons d m ih =>
    obtain ⟨a, x⟩ := d
    simp only [Memory.write] at h
    split at h
    · simpa using h
    · split at h
      · rcases List.mem_cons.1 h with h | h
        · exact .inl h
        · exact .inr (List.mem_cons_of_mem _ h)
      · rcases List.mem_cons.1 h with h | h
        · exact .inr (by simp [h])
        · rcases ih h with h | h
          · exact .inl h
          · exact .inr (List.mem_cons_of_mem _ h)

/-- A write keeps the canonical form. -/
theorem Memory.wf_write {m : Memory} (i : Nat) (v : Byte) (hm : Memory.wf m) : Memory.wf (Memory.write m i v) := by
  induction m with
  | nil => simp [Memory.write]
  | cons c m ih =>
    obtain ⟨a, x⟩ := c
    rw [Memory.wf, List.pairwise_cons] at hm
    simp only [Memory.write]
    split
    · next h =>
      refine List.pairwise_cons.2 ⟨fun c hc => ?_, List.pairwise_cons.2 hm⟩
      rcases List.mem_cons.1 hc with rfl | hc
      · exact h
      · exact Nat.lt_trans h (hm.1 c hc)
    · split
      · next h => subst h; exact List.pairwise_cons.2 hm
      · next h1 h2 =>
        refine List.pairwise_cons.2 ⟨fun c hc => ?_, ih hm.2⟩
        rcases Memory.mem_write hc with rfl | hc
        · show a < i
          omega
        · exact hm.1 c hc

/-- Reset's memory has the canonical form. -/
theorem reset_buf_wf : Memory.wf State.reset.buf := List.Pairwise.nil

theorem memRead_ok {s : State} {i : Nat} (h : i < s.bufLen) : memRead s i = .ok (s.bufByte i) := by
  simp [memRead, Nat.not_le.2 h]

theorem memWrite_ok {s : State} {i : Nat} {v : Byte} (h : i < s.bufLen) :
    memWrite s i v = .ok (s.withBuf (s.buf.write i v)) := by
  simp [memWrite, Nat.not_le.2 h]

/-- Consecutive writes change nothing but the buffer, whatever form it has. -/
theorem memWriteAll_frame {s t : State} {i : Nat} {vs : List Byte} (h : memWriteAll s i vs = .ok t) :
    t = s.withBuf t.buf := by
  induction vs generalizing s i with
  | nil => cases h; rfl
  | cons v vs ih =>
    simp only [memWriteAll, memWrite] at h
    split at h
    · cases h
    · next he =>
      split at he
      · cases he
      · cases he
        exact (ih h).trans rfl

/-- Everything a run of consecutive writes does when it answers a state: only the buffer changes; it keeps its canonical
form and its range; the written offsets hold the bytes in order; every other offset reads as before. -/
theorem memWriteAll_ok {s t : State} {i : Nat} {vs : List Byte} (hw : Memory.wf s.buf) (h : memWriteAll s i vs = .ok t) :
    t = s.withBuf t.buf ∧ Memory.wf t.buf ∧ (∀ c ∈ t.buf, c ∈ s.buf ∨ c.1 < s.bufLen) ∧
      ∀ j, t.buf.read? j = if h : i ≤ j ∧ j < i + vs.length then some vs[j - i] else s.buf.read? j := by
  induction vs generalizing s i with
  | nil =>
    cases h
    exact ⟨rfl, hw, fun c hc => .inl hc, fun j => by simp⟩
  | cons v vs ih =>
    simp only [memWriteAll] at h
    by_cases hi : i < s.bufLen
    · rw [memWrite_ok hi] at h
      obtain ⟨h1, h2, h3, h4⟩ := ih (s := s.withBuf (s.buf.write i v)) (Memory.wf_write i v hw) h
      refine ⟨h1.trans rfl, h2, fun c hc => ?_, fun j => ?_⟩
      · rcases h3 c hc with hc | hc
        · rcases Memory.mem_write hc with rfl | hc
          · exact .inr hi
          · exact .inl hc
        · exact .inr hc
      · rw [h4 j]
        simp only [State.withBuf_buf, Memory.read?_write _ _ _ _ hw, List.length_cons]
        by_cases hj : i = j
        · subst hj; simp
        · by_cases hr : i + 1 ≤ j ∧ j < i + 1 + vs.length
          · have h0 : i ≤ j ∧ j < i + (vs.length + 1) := by omega
            have h5 : j - i = (j - (i + 1)) + 1 := by omega
            simp only [hr, h0, and_self, dite_true, h5, List.getElem_cons_succ]
          · have h0 : ¬ (i ≤ j ∧ j < i + (vs.length + 1)) := by omega
            rw [dif_neg hr, dif_neg h0, if_neg hj]
    · simp [memWrite, Nat.not_lt.1 hi] at h

/-- Consecutive writes within the buffer are answered. -/
theorem memWriteAll_isOk {s : State} {i : Nat} {vs : List Byte} (h : i + vs.length ≤ s.bufLen) :
    ∃ t, memWriteAll s i vs = .ok t := by
  induction vs generalizing s i with
  | nil => exact ⟨s, rfl⟩
  | cons v vs ih =>
    simp only [List.length_cons] at h
    simp only [memWriteAll]
    rw [memWrite_ok (by omega)]
    exact ih (by rw [State.withBuf_bufLen]; omega)

/-! ## Operands -/

theorem Operands.invalid_iff (c : Operands) : c.invalid = true ↔ c.colors = none ∨ sint32 c.count ≤ 0 := by
  rw [Operands.invalid, Bool.or_eq_true, Option.isNone_iff_eq_none, decide_eq_true_eq]; rfl

theorem Operands.tooMany_iff (c : Operands) (s : State) :
    c.tooMany s = true ↔ (s.params.maxPixels : Int) < sint32 c.count := by
  rw [Operands.tooMany, decide_eq_true_eq]; rfl

/-! ## The Encoder -/

@[simp] theorem encodeChannel_length (v mask : Byte) (k : Nat) : (encodeChannel v mask k).length = k := by
  induction k generalizing mask with
  | zero => rfl
  | succ k ih => simp [encodeChannel, ih]

/-- A pixel is 24 bytes (R74). -/
@[simp] theorem encodePixel_length (c : Color) : (encodePixel c).length = 24 := by simp [encodePixel]

/-- `encode(colors, n)` is 24 bytes a colour (R71). -/
theorem encodeColors_length (cs : List Color) (n : Nat) : (encodeColors cs n).length = 24 * min n cs.length := by
  simp [encodeColors, List.length_flatMap, Nat.mul_comm]

end Sys2Proof.Machine
end

