-- ==== Sys2Proof/Laws/PerInstr.lean ====
section
/-! SUPPORT. Statements made for every constructor of Instr, one lemma each (LAWS.json). -/

namespace Sys2Proof.Laws

/-- The match and mask of an operation's row in spec/opcode_table.json. -/
def row : Instr → Word × Word
  | .init => (0x01000000, 0xFFFFFFFF)
  | .update _ _ => (0x02000000, 0xFFFFFFFE)
  | .fgCheck => (0x80000000, 0xFFFFFFFF)
  | .fgDrain => (0x81000000, 0xFFFFFFFF)
  | .fgPrepare => (0x82000000, 0xFFFFFFFF)
  | .fgEncode => (0x83000000, 0xFFFFFFFF)
  | .fgGapwait => (0x84000000, 0xFFFFFFFF)
  | .fgArm => (0x85000000, 0xFFFFFFFF)
  | .fgReturn _ => (0x86000000, 0xFFFFFF00)
  | .dmaSend _ => (0x90000000, 0xFFFFFF00)
  | .dmaComplete => (0x91000000, 0xFFFFFFFF)
  | .irqCompletion => (0xA0000000, 0xFFFFFFFF)
  | .timerTick => (0xB0000000, 0xFFFFFFFF)

/-- The first word of the operation's encoding fits its row of the opcode table. -/
def FitsRow.Statement (i : Instr) : Prop := ∃ w ws, encode i = w :: ws ∧ w &&& (row i).2 = (row i).1

theorem FitsRow.init : FitsRow.Statement .init := ⟨_, _, rfl, by decide⟩

/-- UPDATE's command word with CNULL masked off. -/
theorem updateWord_masked (b : Bool) : commandWord 0x02 b &&& 0xFFFFFFFE = 0x02000000 := by
  cases b <;> decide

theorem FitsRow.update (colors : Option (List Color)) (count : Word) : FitsRow.Statement (.update colors count) := by
  cases colors with
  | none => exact ⟨_, _, rfl, updateWord_masked true⟩
  | some cs => exact ⟨_, _, rfl, updateWord_masked false⟩

theorem FitsRow.fgCheck : FitsRow.Statement .fgCheck := ⟨_, _, rfl, by decide⟩
theorem FitsRow.fgDrain : FitsRow.Statement .fgDrain := ⟨_, _, rfl, by decide⟩
theorem FitsRow.fgPrepare : FitsRow.Statement .fgPrepare := ⟨_, _, rfl, by decide⟩
theorem FitsRow.fgEncode : FitsRow.Statement .fgEncode := ⟨_, _, rfl, by decide⟩
theorem FitsRow.fgGapwait : FitsRow.Statement .fgGapwait := ⟨_, _, rfl, by decide⟩
theorem FitsRow.fgArm : FitsRow.Statement .fgArm := ⟨_, _, rfl, by decide⟩

/-- An event word with its data masked off is the code with zeros below. -/
theorem eventWord_masked (code data : Byte) : eventWord code data &&& 0xFFFFFF00 = eventWord code 0 := by
  have hm : (0xFFFFFF00 : Word) = (0xFFFFFF : BitVec 24) ++ (0 : Byte) := by decide
  have h0 : (code ++ (0 : BitVec 16)) &&& (0xFFFFFF : BitVec 24) = code ++ (0 : BitVec 16) := by
    have : (0xFFFFFF : BitVec 24) = BitVec.allOnes 24 := by decide
    rw [this, BitVec.and_allOnes]
  rw [hm]
  show ((code ++ (0 : BitVec 16)) ++ data) &&& ((0xFFFFFF : BitVec 24) ++ (0 : Byte)) = (code ++ (0 : BitVec 16)) ++ (0 : Byte)
  rw [BitVec.and_append, h0]
  simp

theorem FitsRow.fgReturn (data : Byte) : FitsRow.Statement (.fgReturn data) :=
  ⟨_, _, rfl, (eventWord_masked 0x86 data).trans (by show eventWord 0x86 0 = 0x86000000; decide)⟩

theorem FitsRow.dmaSend (data : Byte) : FitsRow.Statement (.dmaSend data) :=
  ⟨_, _, rfl, (eventWord_masked 0x90 data).trans (by show eventWord 0x90 0 = 0x90000000; decide)⟩

theorem FitsRow.dmaComplete : FitsRow.Statement .dmaComplete := ⟨_, _, rfl, by decide⟩
theorem FitsRow.irqCompletion : FitsRow.Statement .irqCompletion := ⟨_, _, rfl, by decide⟩
theorem FitsRow.timerTick : FitsRow.Statement .timerTick := ⟨_, _, rfl, by decide⟩

end Sys2Proof.Laws
end

