-- ==== Sys2Proof/Laws/Steps.lean ====
section
/-! SUPPORT. What each operation can do: if it answers a next state, then one of these cases holds. Invariants are proved
from these lemmas, not by unfolding the meanings. -/

namespace Sys2Proof.Machine

variable {s t : State}

theorem execInit_next (h : execInit s = .next t) :
    s.live ∧ ((s.phase = .nocall ∧ s.ready = true ∧ t = s.refuse .reinit) ∨
      (s.phase = .nocall ∧ s.ready = false ∧
        t = (State.drive { s with hpc := s.hpc + 1, timer := Config.freeTimer s.draws, draws := s.draws + 1, dmaLen := 0, dmaIdx := 0 }
          .disabled).initFlags) ∨ t = s) := by
  obtain ⟨hl, ⟨hg, he⟩ | ⟨-, rfl⟩⟩ := guarded_next h
  · refine ⟨hl, ?_⟩
    split at he
    · cases he; exact .inl ⟨hg, ‹_›, rfl⟩
    · cases he; exact .inr (.inl ⟨hg, by simpa using ‹¬ s.ready = true›, rfl⟩)
  · exact ⟨hl, .inr (.inr rfl)⟩

theorem execUpdate_next {colors : Option (List Color)} {count : Word} (h : execUpdate colors count s = .next t) :
    s.live ∧ ((s.phase = .nocall ∧ s.ready = true ∧
        t = { s with hpc := s.hpc + 1, cur := some ⟨colors, count⟩, phase := .check }) ∨
      (s.phase = .nocall ∧ s.ready = false ∧ t = s.raise .notReady) ∨ t = s) := by
  obtain ⟨hl, ⟨hg, he⟩ | ⟨-, rfl⟩⟩ := guarded_next h
  · refine ⟨hl, ?_⟩
    split at he
    · cases he; exact .inl ⟨hg, ‹_›, rfl⟩
    · cases he; exact .inr (.inl ⟨hg, by simpa using ‹¬ s.ready = true›, rfl⟩)
  · exact ⟨hl, .inr (.inr rfl)⟩

theorem execFgCheck_next (h : execFgCheck s = .next t) :
    s.live ∧ ((∃ c, s.phase = .check ∧ s.cur = some c ∧
        ((c.invalid = true ∧ t = { s with status := some .invalidArgument, phase := .return }) ∨
          (c.invalid = false ∧ c.tooMany s = true ∧ t = { s with status := some .capacityExceeded, phase := .return }) ∨
          (c.invalid = false ∧ c.tooMany s = false ∧ t = { s with phase := .drain }))) ∨ t = s) := by
  obtain ⟨hl, ⟨hg, he⟩ | ⟨-, rfl⟩⟩ := guarded_next h
  · refine ⟨hl, ?_⟩
    split at he
    · cases he
    · next c hc =>
      refine .inl ⟨c, hg, hc, ?_⟩
      split at he
      · cases he; exact .inl ⟨‹_›, rfl⟩
      · next hi =>
        have hi : c.invalid = false := by simpa using hi
        split at he
        · cases he; exact .inr (.inl ⟨hi, ‹_›, rfl⟩)
        · cases he; exact .inr (.inr ⟨hi, by simpa using ‹¬ c.tooMany s = true›, rfl⟩)
  · exact ⟨hl, .inr rfl⟩

theorem execFgDrain_next (h : execFgDrain s = .next t) :
    s.live ∧ ((s.phase = .drain ∧ s.txDone = true ∧ t = { s with phase := .prepare }) ∨ t = s) := by
  obtain ⟨hl, ⟨hg, he⟩ | ⟨-, rfl⟩⟩ := guarded_next h
  · cases he; exact ⟨hl, .inl ⟨hg.1, hg.2, rfl⟩⟩
  · exact ⟨hl, .inr rfl⟩

theorem execFgPrepare_next (h : execFgPrepare s = .next t) :
    s.live ∧ ((s.phase = .prepare ∧ t = State.drive { s with timer := 0, phase := .encode } .disabled) ∨ t = s) := by
  obtain ⟨hl, ⟨hg, he⟩ | ⟨-, rfl⟩⟩ := guarded_next h
  · cases he; exact ⟨hl, .inl ⟨hg, rfl⟩⟩
  · exact ⟨hl, .inr rfl⟩

theorem execFgEncode_next (h : execFgEncode s = .next t) :
    s.live ∧ ((∃ cs count, s.phase = .encode ∧ s.cur = some ⟨some cs, count⟩ ∧ (sint32 count).toNat ≤ cs.length ∧
        ((∃ f, memWriteAll s 0 (encodeColors cs (sint32 count).toNat) = .error f ∧ t = s.raise f) ∨
          (∃ u, memWriteAll s 0 (encodeColors cs (sint32 count).toNat) = .ok u ∧ t = { u with phase := .gapwait }))) ∨
      t = s) := by
  obtain ⟨hl, ⟨hg, he⟩ | ⟨-, rfl⟩⟩ := guarded_next h
  · refine ⟨hl, .inl ?_⟩
    split at he
    · next cs count hc =>
      split at he
      · cases he
      · next hlen =>
        refine ⟨cs, count, hg, hc, Nat.not_lt.1 hlen, ?_⟩
        split at he
        · cases he; exact .inl ⟨_, ‹_›, rfl⟩
        · cases he; exact .inr ⟨_, ‹_›, rfl⟩
    · cases he
  · exact ⟨hl, .inr rfl⟩

theorem execFgGapwait_next (h : execFgGapwait s = .next t) :
    s.live ∧ ((s.phase = .gapwait ∧ s.gapElapsed ∧ t = { s with phase := .arm }) ∨ t = s) := by
  obtain ⟨hl, ⟨hg, he⟩ | ⟨-, rfl⟩⟩ := guarded_next h
  · cases he; exact ⟨hl, .inl ⟨hg.1, hg.2, rfl⟩⟩
  · exact ⟨hl, .inr rfl⟩

theorem execFgArm_next (h : execFgArm s = .next t) :
    s.live ∧ ((∃ c, s.phase = .arm ∧ s.cur = some c ∧ 0 ≤ c.n ∧
        t = (State.drive
          { s with dmaSrc := s.params.bufBase, dmaLen := transferLength c.n.toNat, dmaIdx := 0, status := some .ok, phase := .return }
          .enabled).armFlags) ∨ t = s) := by
  obtain ⟨hl, ⟨hg, he⟩ | ⟨-, rfl⟩⟩ := guarded_next h
  · refine ⟨hl, .inl ?_⟩
    split at he
    · cases he
    · next c hc =>
      split at he
      · cases he
      · cases he; exact ⟨c, hg, hc, Int.not_lt.1 ‹_›, rfl⟩
  · exact ⟨hl, .inr rfl⟩

theorem execFgReturn_next {data : Byte} (h : execFgReturn data s = .next t) :
    s.live ∧ ((∃ st, s.phase = .return ∧ s.status = some st ∧
        t = { s with returns := s.returns ++ [st], status := none, cur := none, phase := .nocall }) ∨ t = s) := by
  obtain ⟨hl, ⟨hg, he⟩ | ⟨-, rfl⟩⟩ := guarded_next h
  · refine ⟨hl, .inl ?_⟩
    split at he
    · cases he
    · next st hst => cases he; exact ⟨st, hg, hst, rfl⟩
  · exact ⟨hl, .inr rfl⟩

theorem execDmaSend_next {data : Byte} (h : execDmaSend data s = .next t) :
    s.live ∧ ((s.dmaActive = true ∧ s.dmaIdx < s.dmaLen ∧
        ((s.line = .disabled ∧ t = s.raise .lineDisabled) ∨
          (s.line = .enabled ∧ s.bufLen ≤ s.dmaIdx ∧ t = s.raise .bufRange) ∨
          (s.line = .enabled ∧ s.dmaIdx < s.bufLen ∧
            t = State.emit { s with dmaIdx := s.dmaIdx + 1 } (.byte (s.bufByte s.dmaIdx))))) ∨ t = s) := by
  obtain ⟨hl, ⟨hg, he⟩ | ⟨-, rfl⟩⟩ := guarded_next h
  · refine ⟨hl, .inl ⟨hg.1, hg.2, ?_⟩⟩
    split at he
    · cases he; exact .inl ⟨‹_›, rfl⟩
    · next hline =>
      have hline : s.line = .enabled := by cases hs : s.line <;> simp_all
      by_cases hr : s.bufLen ≤ s.dmaIdx
      · simp only [memRead, if_pos hr] at he
        cases he; exact .inr (.inl ⟨hline, hr, rfl⟩)
      · simp only [memRead, if_neg hr] at he
        cases he; exact .inr (.inr ⟨hline, Nat.not_le.1 hr, rfl⟩)
  · exact ⟨hl, .inr rfl⟩

theorem execDmaComplete_next (h : execDmaComplete s = .next t) :
    s.live ∧ ((s.dmaActive = true ∧ s.dmaIdx = s.dmaLen ∧ t = s.completeFlags) ∨ t = s) := by
  obtain ⟨hl, ⟨hg, he⟩ | ⟨-, rfl⟩⟩ := guarded_next h
  · cases he; exact ⟨hl, .inl ⟨hg.1, hg.2, rfl⟩⟩
  · exact ⟨hl, .inr rfl⟩

theorem execIrqCompletion_next (h : execIrqCompletion s = .next t) :
    s.live ∧ ((s.xferDone = true ∧ s.irqEn = true ∧ t = s.ackFlags.drive .disabled) ∨ t = s) := by
  obtain ⟨hl, ⟨hg, he⟩ | ⟨-, rfl⟩⟩ := guarded_next h
  · cases he; exact ⟨hl, .inl ⟨hg.1, hg.2, rfl⟩⟩
  · exact ⟨hl, .inr rfl⟩

theorem execTimerTick_next (h : execTimerTick s = .next t) :
    s.live ∧ ((s.ready = true ∧ t = State.emit { s with timer := s.timer + 1 } .tick) ∨ t = s) := by
  obtain ⟨hl, ⟨hg, he⟩ | ⟨-, rfl⟩⟩ := guarded_next h
  · cases he; exact ⟨hl, .inl ⟨hg, rfl⟩⟩
  · exact ⟨hl, .inr rfl⟩

/-- A step on a turn runs the turn's operation, or holds where the turn has none. -/
theorem stepTurn_next {turn : Turn} (h : stepTurn turn s = .next t) :
    ∃ prog, resolveInput s.hostInput = .ok prog ∧
      ((fetch prog s turn = none ∧ s.live ∧ t = s) ∨ ∃ i, fetch prog s turn = some i ∧ exec i s = .next t) := by
  unfold stepTurn at h
  split at h
  · cases h
  · next prog hp =>
    refine ⟨prog, hp, ?_⟩
    split at h
    · next hf => obtain ⟨hl, rfl⟩ := hold_next h; exact .inl ⟨hf, hl, rfl⟩
    · next i hf => exact .inr ⟨i, hf, h⟩

/-- A scheduled step is a step on the schedule's turn. -/
theorem step_eq : step s = stepTurn s.nextTurn s.afterTurn := rfl

end Sys2Proof.Machine
end

