-- ==== Sys2Proof/Laws/Runs.lean ====
section
/-! SUPPORT. Runs of several turns: what they reach, how they are cut, the timer's ticks and the engine's bytes. -/

namespace Sys2Proof.Machine

/-- An internal step's turn runs that step. -/
theorem stepTurn_internal {s : State} {prog : List HostCmd} (e : Event) (hp : resolveInput s.hostInput = .ok prog) :
    stepTurn (.internal e) s = exec e.toInstr s := by
  unfold stepTurn
  rw [hp]
  rfl

theorem runTurns_append {a b : List Turn} {s t : State} (h : runTurns a s = .next t) :
    runTurns (a ++ b) s = runTurns b t := by
  induction a generalizing s with
  | nil => cases h; rfl
  | cons x a ih =>
    simp only [runTurns, List.cons_append] at h ⊢
    cases hs : stepTurn x s with
    | next u => simp only [hs] at h ⊢; exact ih h
    | fault f => simp [hs] at h
    | refused r => simp [hs] at h

theorem Reachable.run {ts : List Turn} {s t : State} (hr : Reachable s) (h : runTurns ts s = .next t) : Reachable t := by
  induction ts generalizing s with
  | nil => cases h; exact hr
  | cons x ts ih =>
    simp only [runTurns] at h
    cases hs : stepTurn x s with
    | next u => simp only [hs] at h; exact ih (.turn x hr hs) h
    | fault f => simp [hs] at h
    | refused r => simp [hs] at h

/-- `k` ticks count `k`; all else they change is the trace. -/
theorem runTurns_ticks {prog : List HostCmd} (k : Nat) (s : State) (hl : s.live) (hr : s.ready = true)
    (hp : resolveInput s.hostInput = .ok prog) : ∃ tr, runTurns (List.replicate k (.internal .timerTick)) s =
      .next { s with timer := s.timer + BitVec.ofNat 32 k, trace := tr } := by
  induction k generalizing s with
  | zero => exact ⟨s.trace, by simp [runTurns]⟩
  | succ k ih =>
    have e : stepTurn (.internal .timerTick) s = .next (State.emit { s with timer := s.timer + 1 } .tick) :=
      (stepTurn_internal .timerTick hp).trans (guarded_enabled hl hr)
    obtain ⟨tr, h⟩ := ih (State.emit { s with timer := s.timer + 1 } .tick) hl hr hp
    refine ⟨tr, ?_⟩
    rw [List.replicate_succ, runTurns, e]
    refine h.trans ?_
    show Host.Outcome.next { s with timer := s.timer + 1 + BitVec.ofNat 32 k, trace := tr } = _
    have : BitVec.ofNat 32 (k + 1) = 1 + BitVec.ofNat 32 k := by
      apply BitVec.eq_of_toNat_eq
      simp [BitVec.toNat_add, Nat.add_comm]
    rw [this, ← BitVec.add_assoc]

/-- `k` bytes move DMA_IDX by `k`; all else they change is the trace. -/
theorem runTurns_sends {prog : List HostCmd} (k : Nat) (data : Byte) (s : State) (hl : s.live)
    (hp : resolveInput s.hostInput = .ok prog) (ha : s.dmaActive = true) (hline : s.line = .enabled)
    (hk : s.dmaIdx + k ≤ s.dmaLen) (hb : s.dmaLen ≤ s.bufLen) :
    ∃ tr, runTurns (List.replicate k (.internal (.dmaSend data))) s =
      .next { s with dmaIdx := s.dmaIdx + k, trace := tr } := by
  induction k generalizing s with
  | zero => exact ⟨s.trace, by simp [runTurns]⟩
  | succ k ih =>
    have e : stepTurn (.internal (.dmaSend data)) s =
        .next (State.emit { s with dmaIdx := s.dmaIdx + 1 } (.byte (s.bufByte s.dmaIdx))) := by
      refine (stepTurn_internal (.dmaSend data) hp).trans ?_
      show execDmaSend data s = _
      unfold execDmaSend
      rw [guarded_enabled hl ⟨ha, by omega⟩, if_neg (by simp [hline]), memRead_ok (by omega)]
    obtain ⟨tr, h⟩ := ih (State.emit { s with dmaIdx := s.dmaIdx + 1 } (.byte (s.bufByte s.dmaIdx))) hl hp ha hline
      (by simp; omega) (by exact hb)
    refine ⟨tr, ?_⟩
    rw [List.replicate_succ, runTurns, e]
    refine h.trans ?_
    show Host.Outcome.next { s with dmaIdx := s.dmaIdx + 1 + k, trace := tr } = _
    rw [show s.dmaIdx + 1 + k = s.dmaIdx + (k + 1) by omega]

end Sys2Proof.Machine
end

