-- ==== Sys2Proof/Tests/Slice0.lean ====
section
/-! SUPPORT. Tests of one step or one decoding each, on small states, with expected results from 95_test_vectors.md and
30_encoding.md (each docstring names the vector or rule), and for every statement with hypotheses a witness that meets
them. MAX_PIXELS is 8 here, as in 95. -/

namespace Sys2Proof.Machine.Tests

/-! ## Well-formedness (R64): each check, and an ill-formed term it refuses -/

theorem test_wellFormed_no_colours_for_positive_count : HostCmd.wellFormed (.update (some []) 1) = false := by decide
theorem test_wellFormed_too_few_colours : HostCmd.wellFormed (.update (some [0x00FF00]) 2) = false := by decide
theorem test_wellFormed_too_many_colours : Instr.wellFormed (.update (some [0, 0]) 1) = false := by decide
theorem test_wellFormed_colours_for_zero_count : HostCmd.wellFormed (.update (some [0]) 0) = false := by decide
theorem test_wellFormed_colours_for_negative_count : Instr.wellFormed (.update (some [0]) 0xFFFFFFFF) = false := by decide
theorem test_malformed_term_refused : checkTerms [.init, .update (some [0]) 2] = .error .malformed := by decide

theorem witness_wellFormed_null : Instr.wellFormed (.update none 0x80000000) = true := by decide
theorem witness_wellFormed_one : Instr.wellFormed (.update (some [0xFFFFFF]) 1) = true := by decide
theorem witness_wellFormed_zero : Instr.wellFormed (.update (some []) 0) = true := by decide

/-! ## Decoding: every row's word, written out from R58, R61 and R67 -/

theorem test_decode_init : decode [0b00000001000000000000000000000000] = .ok (.init, []) := by decide
theorem test_decode_update : decode [0b00000010000000000000000000000000, 0b00000000000000000000000000000001,
    0b10101011000000001111111100000000] = .ok (.update (some [0x00FF00]) 1, []) := by decide
theorem test_decode_update_null : decode [0b00000010000000000000000000000001, 0b00000000000000000000000000000101] =
    .ok (.update none 5, []) := by decide
theorem test_decode_fgCheck : decode [0b10000000000000000000000000000000] = .ok (.fgCheck, []) := by decide
theorem test_decode_fgDrain : decode [0b10000001000000000000000000000000] = .ok (.fgDrain, []) := by decide
theorem test_decode_fgPrepare : decode [0b10000010000000000000000000000000] = .ok (.fgPrepare, []) := by decide
theorem test_decode_fgEncode : decode [0b10000011000000000000000000000000] = .ok (.fgEncode, []) := by decide
theorem test_decode_fgGapwait : decode [0b10000100000000000000000000000000] = .ok (.fgGapwait, []) := by decide
theorem test_decode_fgArm : decode [0b10000101000000000000000000000000] = .ok (.fgArm, []) := by decide
theorem test_decode_fgReturn : decode [0b10000110000000000000000000000010] = .ok (.fgReturn 0x02, []) := by decide
theorem test_decode_dmaSend : decode [0b10010000000000000000000011111110] = .ok (.dmaSend 0xFE, []) := by decide
theorem test_decode_dmaComplete : decode [0b10010001000000000000000000000000] = .ok (.dmaComplete, []) := by decide
theorem test_decode_irqCompletion : decode [0b10100000000000000000000000000000] = .ok (.irqCompletion, []) := by decide
theorem test_decode_timerTick : decode [0b10110000000000000000000000000000] = .ok (.timerTick, []) := by decide

/-- DC2, DC3, DC4, DC12 in one sequence. -/
theorem test_decode_program : decodeProgram [0x02000001, 5, 0x02000000, 0xFFFFFFFF, 0x02000000, 1, 0xAB00FF00, 0x01000000,
    0x01000000] = .ok [.update none 5, .update (some []) 0xFFFFFFFF, .update (some [0x00FF00]) 1, .init, .init] := by decide
/-- DC6. -/
theorem test_decode_reserved_code : decodeProgram [0x01000000, 0x03000000] = .error .reservedOp := by decide
/-- DC7: an event code is not a command. -/
theorem test_decode_event_is_no_command : decodeProgram [0x80000000] = .error .reservedOp := by decide
/-- DC8. -/
theorem test_decode_init_cnull : decodeProgram [0x01000001] = .error .reservedBits := by decide
/-- DC9. -/
theorem test_decode_update_reserved_bit : decodeProgram [0x02000002, 0] = .error .reservedBits := by decide
/-- DC10. -/
theorem test_decode_no_count : decodeProgram [0x02000000] = .error .truncated := by decide
/-- DC11. -/
theorem test_decode_too_few_colours : decodeProgram [0x02000000, 2, 0] = .error .truncated := by decide

/-- R69: white space, a comment, an empty line, short and upper-case colours, SHOW's expansion. -/
theorem test_assemble : assemble ['S', 'H', 'O', 'W', ' ', '[', '0', 'x', 'f', ',', '0', 'x', 'A', 'B', ']', ' ', ';', 'U', '\n', '\n',
    'I', 'N', 'I', 'T'] = .ok [.update (some [0x0F, 0xAB]) 2, .init] := by decide
/-- R69 and R64: a count that does not match the list. -/
theorem test_assemble_malformed : assemble ['U', 'P', 'D', 'A', 'T', 'E', ' ', '[', '0', 'x', '1', ']', ',', '2'] =
    .error .malformed := by decide

/-! ## Small states -/

/-- P1's words: INIT, then UPDATE of one red pixel. -/
def redProgram : HostInput := .words [0x01000000, 0x02000000, 0x00000001, 0x0000FF00]

/-- A state after reset, MAX_PIXELS = 8, with P1's program. -/
def powerOn : State where
  ready := false
  txDone := false
  phase := .nocall
  cur := none
  status := none
  line := .disabled
  timer := 0x89ABCDEF
  dmaActive := false
  dmaSrc := 0
  dmaLen := 0
  dmaIdx := 0
  xferDone := false
  irqEn := false
  buf := []
  fault := none
  refused := none
  trace := []
  returns := []
  hpc := 0
  params := ⟨8, 0x20000000⟩
  hostInput := redProgram
  sched := []
  draws := 0

/-- A state after INIT. -/
def up : State := { powerOn with ready := true, txDone := true, irqEn := true, trace := [.disable], hpc := 1 }

/-- A buffer of n equal bytes. -/
def filled (n : Nat) (b : Byte) : Memory := (List.range n).map fun i => (i, b)

/-- A state in a call of these colours, in a phase. -/
def calling (phase : Phase) (cs : List Color) : State :=
  { up with phase := phase, cur := some ⟨some cs, BitVec.ofNat 32 cs.length⟩, hpc := 2 }

/-- A transfer of one blue-less, red-less pixel in flight, after 8 bytes, while a second call drains. -/
def flying : State :=
  { calling .drain [0] with
    txDone := false, dmaActive := true, dmaLen := 24, dmaIdx := 8, line := .enabled, buf := filled 24 0x80 }

/-- The next state of an answer. -/
def after : Out → Option State
  | .next s => some s
  | .fault _ => none
  | .refused _ => none

/-! ## One step each, from 95_test_vectors.md -/

/-- HC1. -/
theorem test_init : (after (exec .init powerOn)).map (fun s => (s.ready, s.txDone, s.irqEn, s.trace, s.hpc)) =
    some (true, true, true, [.disable], 1) := by decide
/-- HC2. -/
theorem test_init_twice : (after (exec .init up)).map (fun s => (s.refused, s.hpc, s.trace)) =
    some (some .reinit, 1, [.disable]) := by decide
/-- HC3. -/
theorem test_update_before_init : (after (exec (.update (some [0x00FF00]) 1) powerOn)).map (fun s => (s.fault, s.hpc)) =
    some (some ⟨.notReady, 0⟩, 0) := by decide
/-- HC4. -/
theorem test_update : (after (exec (.update (some [0x00FF00]) 1) up)).map (fun s => (s.cur, s.phase, s.hpc)) =
    some (some ⟨some [0x00FF00], 1⟩, .check, 2) := by decide
/-- CK5: the null test comes first. -/
theorem test_fgCheck_null : (after (exec .fgCheck { up with phase := .check, cur := some ⟨none, 9⟩ })).map
    (fun s => (s.status, s.phase)) = some (some .invalidArgument, .return) := by decide
/-- CK9. -/
theorem test_fgCheck_capacity : (after (exec .fgCheck (calling .check [1, 2, 3, 4, 5, 6, 7, 8, 9]))).map
    (fun s => (s.status, s.phase)) = some (some .capacityExceeded, .return) := by decide
/-- DR1. -/
theorem test_fgDrain_holds : (after (exec .fgDrain flying)).map (fun s => (s.phase, s.txDone)) = some (.drain, false) := by
  decide
/-- DR2. -/
theorem test_fgDrain : (after (exec .fgDrain (calling .drain [0]))).map (·.phase) = some .prepare := by decide
/-- PR1. -/
theorem test_fgPrepare : (after (exec .fgPrepare { calling .prepare [0] with timer := 123456 })).map
    (fun s => (s.timer, s.line, s.trace, s.phase)) = some (0, .disabled, [.disable, .disable], .encode) := by decide
/-- EN1, its first 25 bytes and the last of the buffer. -/
theorem test_fgEncode : (after (exec .fgEncode { calling .encode [0x00FF00] with buf := filled 192 0xFE })).map
    (fun s => (s.bufBytes 25, s.bufByte 191)) = some ([0x80, 0x80, 0x80, 0x80, 0x80, 0x80, 0x80, 0x80, 0xFE, 0xFE, 0xFE, 0xFE,
      0xFE, 0xFE, 0xFE, 0xFE, 0x80, 0x80, 0x80, 0x80, 0x80, 0x80, 0x80, 0x80, 0xFE], 0xFE) := by decide
/-- GW1. -/
theorem test_fgGapwait_holds : (after (exec .fgGapwait { calling .gapwait [0] with timer := 0x45 })).map (·.phase) =
    some .gapwait := by decide
/-- GW3: the comparison is unsigned. -/
theorem test_fgGapwait : (after (exec .fgGapwait { calling .gapwait [0] with timer := 0x80000000 })).map (·.phase) =
    some .arm := by decide
/-- AR1. -/
theorem test_fgArm : (after (exec .fgArm (calling .arm [0]))).map
    (fun s => (s.txDone, s.dmaSrc, s.dmaLen, s.trace, s.status)) =
    some (false, 0x20000000, 24, [.disable, .enable], some .ok) := by decide
/-- AR2. -/
theorem test_fgArm_full : (after (exec .fgArm (calling .arm [1, 2, 3, 4, 5, 6, 7, 8]))).map (fun s => (s.dmaLen, s.dmaIdx)) =
    some (192, 0) := by decide
/-- RT2. -/
theorem test_fgReturn : (after (exec (.fgReturn 0x02)
    { calling .return [0] with status := some .capacityExceeded, returns := [.ok] })).map
    (fun s => (s.returns, s.status, s.cur, s.phase)) = some ([.ok, .capacityExceeded], none, none, .nocall) := by decide
/-- DM1. -/
theorem test_dmaSend : (after (exec (.dmaSend 0xFE) { flying with buf := filled 24 0xFE })).map (fun s => (s.trace, s.dmaIdx)) =
    some ([.disable, .byte 0xFE], 9) := by decide
/-- DM3. -/
theorem test_dmaSend_at_end : (after (exec (.dmaSend 0) { flying with dmaIdx := 24 })).map (fun s => (s.trace, s.dmaIdx)) =
    some ([.disable], 24) := by decide
/-- DM4. -/
theorem test_dmaComplete : (after (exec .dmaComplete { flying with dmaIdx := 24 })).map
    (fun s => (s.dmaActive, s.xferDone, s.txDone)) = some (false, true, false) := by decide
/-- DM5. -/
theorem test_dmaComplete_early : (after (exec .dmaComplete { flying with dmaIdx := 10 })).map
    (fun s => (s.dmaActive, s.xferDone)) = some (true, false) := by decide
/-- IQ2. -/
theorem test_irqCompletion : (after (exec .irqCompletion { flying with dmaIdx := 24, dmaActive := false, xferDone := true })).map
    (fun s => (s.xferDone, s.txDone, s.line, s.trace, s.phase)) = some (false, true, .disabled, [.disable, .disable], .drain) := by
  decide
/-- IQ5. -/
theorem test_irqCompletion_masked : (after (exec .irqCompletion { up with xferDone := true, irqEn := false })).map
    (fun s => (s.xferDone, s.trace)) = some (true, [.disable]) := by decide
/-- TM3. -/
theorem test_timerTick_wraps : (after (exec .timerTick { up with timer := 0xFFFFFFFF })).map (fun s => (s.timer, s.trace)) =
    some (0, [.disable, .tick]) := by decide
/-- TM2. -/
theorem test_timerTick_before_init : (after (exec .timerTick powerOn)).map (fun s => (s.timer, s.trace)) =
    some (0x89ABCDEF, []) := by decide

/-- PX6. -/
theorem test_encodePixel : encodePixel 0x123456 = [0x80, 0x80, 0x80, 0xFE, 0x80, 0x80, 0xFE, 0x80, 0x80, 0x80, 0xFE, 0xFE, 0x80,
    0xFE, 0x80, 0x80, 0x80, 0xFE, 0x80, 0xFE, 0x80, 0xFE, 0xFE, 0x80] := by decide
/-- PX7, its first and last bytes. -/
theorem test_encodePixel_ends : ((encodePixel 0x800001).head?, (encodePixel 0x800001).getLast?) = (some 0xFE, some 0xFE) := by
  decide
/-- EN3: a shorter call keeps the bytes it does not write. -/
theorem test_fgEncode_keeps : (after (exec .fgEncode { calling .encode [0x123456] with buf := filled 48 0xFE })).map
    (fun s => (s.bufByte 2, s.bufByte 3, s.bufByte 24, s.bufByte 47)) = some (0x80, 0xFE, 0xFE, 0xFE) := by decide

/-- The first operation after reset, from its table row. -/
theorem test_step_runs_init_after_reset : (after (step (State.reset.withFetchWord 32 0x01000000))).map
    (fun s => (s.ready, s.txDone, s.hpc)) = some (true, true, 1) := by decide
theorem test_decodeTableWord_update : decodeTableWord 32 0x02000000 = some (.update (some []) 0) := by decide
theorem test_decodeTableWord_update_null : decodeTableWord 64 0x0000000502000001 = some (.update none 5) := by decide

/-! ## Witnesses: encoding -/

theorem witness_program_wellFormed : ∀ c ∈ [HostCmd.init, .update none 9, .update (some [1, 2]) 2], c.wellFormed = true := by
  decide
theorem witness_decoded : decodeProgram [0x02000000, 1, 0x000000FF] = .ok [.update (some [0x0000FF]) 1] := by decide
theorem witness_assembled_null : opOf 0x02000001 = 0x02 ∧ rsvdOf 0x02000001 = 0 ∧ cnullOf 0x02000001 = true := by decide
theorem witness_assembled_colours : opOf 0x02000000 = 0x02 ∧ rsvdOf 0x02000000 = 0 ∧ cnullOf 0x02000000 = false ∧
    1 ≤ sint32 1 ∧ (([0xAB00FF00] : List Word).length : Int) = sint32 1 := by decide
theorem witness_assembled_none : cnullOf 0x02000000 = false ∧ sint32 0 ≤ 0 ∧ sint32 0x80000000 ≤ 0 := by decide
theorem witness_reservedOp : (0x03000000 : Word).toNat / 2 ^ 24 ≠ 1 ∧ (0x03000000 : Word).toNat / 2 ^ 24 ≠ 2 ∧
    (0x00FFFFFF : Word).toNat / 2 ^ 24 ≠ 1 ∧ (0x00FFFFFF : Word).toNat / 2 ^ 24 ≠ 2 := by decide
theorem witness_reservedBits_init : (0x01000001 : Word).toNat / 2 ^ 24 = 1 ∧ (0x01000001 : Word).toNat % 2 ^ 24 ≠ 0 := by decide
theorem witness_reservedBits_update : (0x02000002 : Word).toNat / 2 ^ 24 = 2 ∧ (0x02000002 : Word).toNat / 2 % 2 ^ 23 ≠ 0 := by
  decide
theorem witness_truncated_no_count : (0x02000000 : Word).toNat / 2 ^ 24 = 2 ∧ (0x02000000 : Word).toNat / 2 % 2 ^ 23 = 0 ∧
    (0x02000001 : Word).toNat / 2 ^ 24 = 2 ∧ (0x02000001 : Word).toNat / 2 % 2 ^ 23 = 0 := by decide
theorem witness_truncated : (0x02000000 : Word).toNat % 2 = 0 ∧ (([] : List Word).length : Int) < sint32 1 ∧
    (([0] : List Word).length : Int) < sint32 2 := by decide
theorem witness_event_send : guardHolds (.dmaSend 0) flying = true ∧
    (after (exec (.dmaSend 0) flying)).map (·.fault) = some none := by decide
theorem witness_event_return : guardHolds (.fgReturn 0) { calling .return [0] with status := some .ok } = true ∧
    (after (exec (.fgReturn 0) { calling .return [0] with status := some .ok })).isSome = true := by decide

/-! ## Witnesses: the encoder and the buffer -/

theorem witness_lane : channel 0x123456 0 = channel 0x12FF56 0 ∧ channel 0x123456 1 ≠ channel 0x12FF56 1 := by decide
theorem witness_encode_bounds : 2 ≤ ([0x000000, 0xFFFFFF] : List Color).length ∧ 1 < 2 ∧ 23 < 24 := by decide
theorem witness_buffer_ends : Memory.wf flying.buf ∧ 24 * flying.params.maxPixels ≤ 192 ∧ 191 < 24 * flying.params.maxPixels := by
  decide

/-! ## Witnesses: each operation's conditions, at the ends of their ranges -/

theorem witness_init : powerOn.live ∧ powerOn.phase = .nocall ∧ powerOn.ready = false := by decide
theorem witness_init_again : up.live ∧ up.phase = .nocall ∧ up.ready = true := by decide
theorem witness_check_null : ({ up with phase := .check, cur := some ⟨none, 1⟩ } : State).live ∧
    ({ up with phase := .check, cur := some ⟨none, 1⟩ } : State).cur = some ⟨none, 1⟩ := by decide
theorem witness_check_zero : (calling .check []).live ∧ (calling .check []).phase = .check ∧
    (calling .check []).cur = some ⟨some [], 0⟩ ∧ sint32 0 ≤ 0 := by decide
theorem witness_check_above : (calling .check [1, 2, 3, 4, 5, 6, 7, 8, 9]).cur = some ⟨some [1, 2, 3, 4, 5, 6, 7, 8, 9], 9⟩ ∧
    0 < sint32 9 ∧ (up.params.maxPixels : Int) < sint32 9 := by decide
theorem witness_check_at : (calling .check [1, 2, 3, 4, 5, 6, 7, 8]).cur = some ⟨some [1, 2, 3, 4, 5, 6, 7, 8], 8⟩ ∧
    0 < sint32 8 ∧ sint32 8 ≤ (up.params.maxPixels : Int) := by decide
theorem witness_drain : (calling .drain [0]).live ∧ (calling .drain [0]).phase = .drain ∧ (calling .drain [0]).txDone = true := by
  decide
theorem witness_drain_waits : flying.live ∧ flying.phase = .drain ∧ flying.txDone = false := by decide
theorem witness_prepare : (calling .prepare [0]).live ∧ (calling .prepare [0]).phase = .prepare := by decide
theorem witness_encode_one : (calling .encode [7]).live ∧ (calling .encode [7]).cur = some ⟨some [7], 1⟩ ∧ Memory.wf up.buf ∧
    (([7] : List Color).length : Int) = sint32 1 ∧ ([7] : List Color).length ≤ up.params.maxPixels := by decide
theorem witness_encode_full : (calling .encode [1, 2, 3, 4, 5, 6, 7, 8]).cur = some ⟨some [1, 2, 3, 4, 5, 6, 7, 8], 8⟩ ∧
    (([1, 2, 3, 4, 5, 6, 7, 8] : List Color).length : Int) = sint32 8 ∧
    ([1, 2, 3, 4, 5, 6, 7, 8] : List Color).length ≤ up.params.maxPixels := by decide
theorem witness_encode_above : (calling .encode [1, 2, 3, 4, 5, 6, 7, 8, 9]).live ∧
    (calling .encode [1, 2, 3, 4, 5, 6, 7, 8, 9]).cur = some ⟨some [1, 2, 3, 4, 5, 6, 7, 8, 9], 9⟩ ∧
    up.params.maxPixels < ([1, 2, 3, 4, 5, 6, 7, 8, 9] : List Color).length := by decide
theorem witness_gap_over : ({ calling .gapwait [0] with timer := 70 } : State).live ∧ 70 ≤ (70 : Word).toNat := by decide
theorem witness_gap_waits : (69 : Word).toNat < 70 ∧ (calling .gapwait [0]).phase = .gapwait := by decide
theorem witness_arm : (calling .arm [1, 2, 3, 4, 5, 6, 7, 8]).live ∧ (calling .arm [1, 2, 3, 4, 5, 6, 7, 8]).phase = .arm ∧
    1 ≤ sint32 1 ∧ sint32 8 ≤ (up.params.maxPixels : Int) := by decide
theorem witness_return : ({ calling .return [0] with status := some .ok } : State).live ∧
    ({ calling .return [0] with status := some .ok } : State).phase = .return := by decide
theorem witness_send : flying.live ∧ flying.dmaActive = true ∧ flying.dmaIdx < flying.dmaLen ∧ flying.line = .enabled ∧
    flying.dmaIdx < 24 * flying.params.maxPixels := by decide
theorem witness_send_disabled : ({ flying with line := .disabled } : State).live ∧
    ({ flying with line := .disabled } : State).line = .disabled := by decide
theorem witness_send_out_of_range : ({ flying with dmaIdx := 192, dmaLen := 193 } : State).dmaIdx <
      ({ flying with dmaIdx := 192, dmaLen := 193 } : State).dmaLen ∧ 24 * flying.params.maxPixels ≤ 192 := by decide
theorem witness_complete : ({ flying with dmaIdx := 24 } : State).live ∧
    ({ flying with dmaIdx := 24 } : State).dmaIdx = ({ flying with dmaIdx := 24 } : State).dmaLen := by decide
theorem witness_irq : ({ up with xferDone := true } : State).live ∧ ({ up with xferDone := true } : State).irqEn = true := by decide
theorem witness_disabled : up.live ∧ guardHolds .fgCheck up = false := by decide
theorem witness_sticky_fault : ({ up with fault := some ⟨.notReady, 0⟩ } : State).fault ≠ none := by decide
theorem witness_sticky_refusal : ({ up with refused := some .reinit } : State).fault = none ∧
    ({ up with refused := some .reinit } : State).refused ≠ none := by decide

/-! ## Witnesses: the step -/

theorem witness_resolves : resolveInput redProgram = .ok [.init, .update (some [0x00FF00]) 1] := by decide
theorem witness_step_host : ({ up with sched := [.host, .host] } : State).sched = .host :: [.host] ∧
    ([.init, .update (some [0x00FF00]) 1] : List HostCmd)[up.hpc]? = some (.update (some [0x00FF00]) 1) := by decide
theorem witness_step_event : decodeEvent 0xB0000000 = .ok .timerTick := by decide
theorem witness_step_done : ({ up with hpc := 2 } : State).live ∧
    ([.init, .update (some [0x00FF00]) 1] : List HostCmd).length ≤ 2 := by decide
theorem witness_step_free : up.sched = [] := by decide
theorem witness_undecodable : decodeProgram [0x01000000, 0x03000000] = .error .reservedOp := by decide
theorem witness_illFormed : HostCmd.update (some [0]) 2 ∈ [HostCmd.init, .update (some [0]) 2] ∧
    (HostCmd.update (some [0]) 2).wellFormed = false := by decide
theorem witness_placed : decodeTableWord 32 0xB0000000 = some .timerTick ∧ decodeTableWord 32 0x01000000 = some .init := by decide

/-! ## Witnesses: runs and invariants -/

theorem witness_start : powerOn.isStart :=
  ⟨rfl, rfl, rfl, rfl, rfl, rfl, rfl, rfl, rfl, rfl, rfl, rfl, rfl, rfl, rfl, by decide, List.Pairwise.nil,
    fun c hc => by cases hc⟩

/-- Some turns from a state; the state itself where they stop. -/
def runTo (ts : List Turn) (s : State) : State := (after (runTurns ts s)).getD s

theorem reachable_runTo {s : State} (ts : List Turn) (h : Reachable s) : Reachable (runTo ts s) := by
  unfold runTo
  cases hr : runTurns ts s with
  | next t => exact h.run hr
  | fault f => exact h
  | refused r => exact h

/-- P1 up to the gap. -/
def atGap : State :=
  runTo [.host, .host, .internal .fgCheck, .internal .fgDrain, .internal .fgPrepare, .internal .fgEncode] powerOn

/-- P1 at the gap, 70 ticks later, with the trace that has them. -/
def gapOver (tr : List WireEvent) : State := { atGap with timer := atGap.timer + 70, trace := tr }

/-- P1 just after FG_ARM. -/
def armedAt (tr : List WireEvent) : State := runTo [.internal .fgGapwait, .internal .fgArm] (gapOver tr)

theorem witness_reachable_armed : ∃ tr, Reachable (armedAt tr) := by
  obtain ⟨tr, h⟩ := runTurns_ticks 70 atGap ⟨rfl, rfl⟩ rfl (prog := [.init, .update (some [0x00FF00]) 1]) (by decide)
  exact ⟨tr, reachable_runTo _ ((reachable_runTo _ (.start witness_start)).run h)⟩

theorem witness_transfer_in_flight : ∃ s, Reachable s ∧ s.dmaActive = true ∧ s.ready = true ∧ s.phase = .return := by
  obtain ⟨tr, h⟩ := witness_reachable_armed
  exact ⟨_, h, rfl, rfl, rfl⟩

theorem witness_before_arm : Reachable atGap ∧ atGap.ready = true ∧ atGap.phase = .gapwait :=
  ⟨reachable_runTo _ (.start witness_start), rfl, rfl⟩

theorem witness_arm_enabled : ∃ s, Reachable s ∧ s.enables .fgArm = true := by
  obtain ⟨tr, h⟩ := runTurns_ticks 70 atGap ⟨rfl, rfl⟩ rfl (prog := [.init, .update (some [0x00FF00]) 1]) (by decide)
  exact ⟨_, reachable_runTo [.internal .fgGapwait] ((reachable_runTo _ (.start witness_start)).run h), rfl⟩

/-- The engine moves on from an armed state. -/
theorem witness_step_in_flight : ∃ s t, Reachable s ∧ s.dmaActive = true ∧ stepTurn (.internal (.dmaSend 0)) s = .next t := by
  obtain ⟨tr, h⟩ := witness_reachable_armed
  exact ⟨_, _, h, rfl, rfl⟩

theorem witness_run_not_ready : ∃ s, Reachable s ∧ s.fault = some ⟨.notReady, 0⟩ :=
  ⟨_, .turn .host (.start (s := { powerOn with hostInput := .words [0x02000001, 5] }) witness_start) rfl, rfl⟩

theorem witness_run_reinit : ∃ s, Reachable s ∧ s.refused = some .reinit :=
  ⟨_, reachable_runTo [.host, .host] (.start (s := { powerOn with hostInput := .words [0x01000000, 0x01000000] }) witness_start),
    rfl⟩

/-- P1's final state: every byte sent, the completion handled. -/
theorem witness_final : ∃ s, Reachable s ∧ resolveInput s.hostInput = .ok [.init, .update (some [0x00FF00]) 1] ∧ s.final ∧
    s.returns = [.ok] := by
  obtain ⟨tr, h⟩ := witness_reachable_armed
  obtain ⟨tr', h'⟩ := runTurns_sends 24 0 (runTo [.internal (.fgReturn 0)] (armedAt tr)) ⟨rfl, rfl⟩
    (prog := [.init, .update (some [0x00FF00]) 1]) witness_resolves rfl rfl (Nat.le_refl 24) (by show 24 ≤ 192; decide)
  have hr := reachable_runTo [.internal .dmaComplete, .internal .irqCompletion] ((reachable_runTo _ h).run h')
  exact ⟨_, hr, witness_resolves, ⟨rfl, rfl, ⟨_, witness_resolves, rfl⟩, rfl, rfl, rfl⟩, rfl⟩

/-- The invariants of a state with a transfer in flight and a second call waiting. -/
theorem witness_inv : flying.Inv where
  params := by decide
  bufWf := by decide
  bufRange := by decide
  beforeInit := by decide
  registered := by decide
  txDone := by decide
  exclusive := by decide
  idleBeforeArm := by decide
  lineEnabled := by decide
  dmaBounds := by decide
  inFlight := fun _ => ⟨[0], by decide, by decide, by decide, by show _ = _; decide⟩
  allSent := by decide
  curInCall := by decide
  statusAtReturn := by decide
  curWellFormed := fun c hc => by cases hc; decide
  curAdmitted := fun c hc _ => by cases hc; exact ⟨[0], rfl, by decide, by decide, by decide⟩
  encoded := fun h => absurd h (by decide)
  hpcBound := fun prog hp => by cases hp.symm.trans witness_resolves; decide

theorem witness_enabled : flying.enables (.dmaSend 0) = true := by decide
theorem witness_inv_step : ∃ t, stepTurn (.internal (.dmaSend 0)) flying = .next t := ⟨_, rfl⟩

/-- What the reset-gap law rests on, in the same state. -/
theorem witness_gapInv : flying.GapInv where
  kept := by decide
  measured := by decide
  elapsed := by decide

/-- P1 while its frame is on the wire: 8 of 24 bytes sent, the call about to return. -/
def sending : State :=
  { calling .return [0x00FF00] with
    status := some .ok, txDone := false, dmaActive := true, dmaLen := 24, dmaIdx := 8, line := .enabled
    buf := (List.range 24).map fun i => (i, if 8 ≤ i ∧ i < 16 then 0xFE else 0x80)
    trace := [.disable, .disable, .enable] ++ List.replicate 8 (.byte 0x80) }

theorem witness_sending_inv : sending.Inv where
  params := by decide
  bufWf := by decide
  bufRange := by decide
  beforeInit := by decide
  registered := by decide
  txDone := by decide
  exclusive := by decide
  idleBeforeArm := by decide
  lineEnabled := by decide
  dmaBounds := by decide
  inFlight := fun _ => ⟨[0x00FF00], by decide, by decide, by decide, by show _ = _; decide⟩
  allSent := by decide
  curInCall := by decide
  statusAtReturn := by decide
  curWellFormed := fun c hc => by cases hc; decide
  curAdmitted := fun c hc _ => by cases hc; exact ⟨[0x00FF00], rfl, by decide, by decide, by decide⟩
  encoded := fun h => absurd h (by decide)
  hpcBound := fun prog hp => by cases hp.symm.trans witness_resolves; decide

/-- What the frame law rests on, in that state. -/
theorem witness_frameInv : sending.FrameInv [.init, .update (some [0x00FF00]) 1] where
  counted := by decide
  serving := by decide
  isOpen := by decide
  bytes := by decide
  frames := by decide

theorem witness_frameInv_step : ∃ t, stepTurn (.internal (.fgReturn 0)) sending = .next t := ⟨_, rfl⟩

theorem witness_drain_ends : ∃ t, stepTurn (.internal .irqCompletion) { flying with xferDone := true } = .next t ∧ t.txDone = true :=
  ⟨_, rfl, rfl⟩

theorem witness_encode_twice : ∃ t, exec .fgEncode (calling .encode [0x00FF00]) = .next t ∧ t.live := ⟨_, rfl, rfl, rfl⟩

theorem witness_txDone_cleared : ∃ t, exec .fgArm (calling .arm [0]) = .next t ∧ t.txDone ≠ (calling .arm [0]).txDone :=
  ⟨_, rfl, by decide⟩
theorem witness_txDone_set : ∃ t, exec .irqCompletion { flying with xferDone := true } = .next t ∧ t.txDone ≠ flying.txDone :=
  ⟨_, rfl, by decide⟩
theorem witness_timer_counts : ∃ t, exec .timerTick up = .next t ∧ t.timer ≠ up.timer := ⟨_, rfl, by decide⟩
theorem witness_timer_cleared : ∃ t, exec .fgPrepare (calling .prepare [0]) = .next t ∧ t.timer ≠ up.timer := ⟨_, rfl, by decide⟩

theorem witness_phase_moves : ∃ t, exec .fgDrain (calling .drain [0]) = .next t ∧ t.phase ≠ .drain := ⟨_, rfl, by decide⟩
theorem witness_phase_opens : ∃ t, exec (.update none 0) up = .next t ∧ t.phase ≠ up.phase := ⟨_, rfl, by decide⟩
theorem witness_final_step : ∃ t, stepTurn (.internal .timerTick) { up with hpc := 2 } = .next t ∧
    ({ up with hpc := 2 } : State).final :=
  ⟨_, rfl, rfl, rfl, ⟨_, witness_resolves, rfl⟩, rfl, rfl, rfl⟩

theorem witness_gapwait : (calling .gapwait [0]).live ∧ (calling .gapwait [0]).ready = true ∧
    resolveInput (calling .gapwait [0]).hostInput = .ok [.init, .update (some [0x00FF00]) 1] ∧
    (calling .gapwait [0]).phase = .gapwait := by decide

end Sys2Proof.Machine.Tests
end

section
/-! The scope (00_scope.md R12, R13): a step whose guard fails is a hold, and a live state that meets the invariants has
an answer for every operation. -/

namespace Sys2Proof.Machine

variable {s : State}

/-! ## Every operation is a guarded step -/

/-- Only the truth of a guard matters, not how it is written. -/
theorem guarded_congr {g g' : Prop} [Decidable g] [Decidable g'] {e : Out} (h : g ↔ g') : guarded s g e = guarded s g' e := by
  unfold guarded
  split
  · rfl
  · rfl
  · exact if_congr h rfl rfl

/-- The guard of each operation's meaning is `guardHolds`, the line "Enabled when" of its rule. -/
theorem exec_eq_guarded (i : Instr) (s : State) : ∃ e, exec i s = guarded s (guardHolds i s = true) e := by
  cases i with
  | init | update | fgCheck | fgPrepare | fgEncode | fgArm | fgReturn => exact ⟨_, guarded_congr decide_eq_true_iff.symm⟩
  | fgDrain | fgGapwait | dmaSend | dmaComplete | irqCompletion => exact ⟨_, guarded_congr (by simp [guardHolds])⟩
  | timerTick => exact ⟨_, rfl⟩

/-- Settles O29: every operation is guarded by `guardHolds`, so where that fails the step is a hold. -/
theorem disabledStepsHold : Obligations.DisabledStepsHold := by
  intro i s hl hg
  obtain ⟨e, he⟩ := exec_eq_guarded i s
  rw [he]
  exact guarded_held hl (Bool.eq_false_iff.1 hg)

/-! ## The operands that the invariants supply -/

/-- In a call CUR holds operands (10_state.md R18). -/
theorem State.Inv.cur_of_inCall (hi : s.Inv) (hp : s.phase ≠ .nocall) : ∃ c, s.cur = some c :=
  Option.ne_none_iff_exists'.1 (mt hi.curInCall.1 hp)

/-- From FG_PREPARE to FG_ARM the operands in CUR are ones that FG_CHECK let pass (41_host_commands.md R85). -/
theorem State.Inv.admitted_of_beforeArm (hi : s.Inv) (hp : s.phase.beforeArm) :
    ∃ cs count, s.cur = some ⟨some cs, count⟩ ∧ (cs.length : Int) = sint32 count ∧ 1 ≤ cs.length ∧
      cs.length ≤ s.params.maxPixels := by
  have hcall : s.phase ≠ .nocall := by rcases hp with h | h | h | h <;> simp [h]
  obtain ⟨⟨colors, count⟩, hc⟩ := hi.cur_of_inCall hcall
  obtain ⟨cs, rfl, hlen, hbounds⟩ := hi.curAdmitted _ hc (.inr (.inl hp))
  exact ⟨cs, count, hc, hlen, hbounds⟩

/-- Where the call returns STATUS holds a status (10_state.md R19). -/
theorem State.Inv.status_of_return (hi : s.Inv) (hp : s.phase = .return) : ∃ st, s.status = some st :=
  Option.ne_none_iff_exists'.1 fun h => hi.statusAtReturn.1 h hp

/-! ## Progress -/

/-- A guarded step of a live state answers a next state when its effect does. -/
theorem guarded_answers {g : Prop} [Decidable g] {e : Out} (hl : s.live) (h : g → ∃ t, e = .next t) :
    ∃ t, guarded s g e = .next t := by
  by_cases hg : g
  · exact guarded_enabled hl hg ▸ h hg
  · exact ⟨s, guarded_held hl hg⟩

theorem execInit_answers (hl : s.live) : ∃ t, execInit s = .next t :=
  guarded_answers hl fun _ => by split <;> exact ⟨_, rfl⟩

theorem execUpdate_answers (colors : Option (List Color)) (count : Word) (hl : s.live) :
    ∃ t, execUpdate colors count s = .next t :=
  guarded_answers hl fun _ => by split <;> exact ⟨_, rfl⟩

theorem execFgCheck_answers (hl : s.live) (hc : s.phase = .check → ∃ c, s.cur = some c) : ∃ t, execFgCheck s = .next t := by
  refine guarded_answers hl fun hp => ?_
  obtain ⟨c, hc⟩ := hc hp
  rw [hc]
  dsimp only
  split
  · exact ⟨_, rfl⟩
  · split <;> exact ⟨_, rfl⟩

/-- Out of the buffer's range FG_ENCODE raises a fault, which is a next state too. -/
theorem execFgEncode_answers (hl : s.live)
    (hc : s.phase = .encode → ∃ cs count, s.cur = some ⟨some cs, count⟩ ∧ (sint32 count).toNat ≤ cs.length) :
    ∃ t, execFgEncode s = .next t := by
  refine guarded_answers hl fun hp => ?_
  obtain ⟨cs, count, hc, hlen⟩ := hc hp
  rw [hc]
  dsimp only
  rw [if_neg (Nat.not_lt.2 hlen)]
  split <;> exact ⟨_, rfl⟩

theorem execFgArm_answers (hl : s.live) (hc : s.phase = .arm → ∃ c, s.cur = some c ∧ 0 ≤ c.n) :
    ∃ t, execFgArm s = .next t := by
  refine guarded_answers hl fun hp => ?_
  obtain ⟨c, hc, hn⟩ := hc hp
  rw [hc]
  dsimp only
  rw [if_neg (Int.not_lt.2 hn)]
  exact ⟨_, rfl⟩

theorem execFgReturn_answers (data : Byte) (hl : s.live) (hst : s.phase = .return → ∃ st, s.status = some st) :
    ∃ t, execFgReturn data s = .next t := by
  refine guarded_answers hl fun hp => ?_
  obtain ⟨st, hst⟩ := hst hp
  rw [hst]
  exact ⟨_, rfl⟩

theorem execDmaSend_answers (data : Byte) (hl : s.live) : ∃ t, execDmaSend data s = .next t := by
  refine guarded_answers hl fun _ => ?_
  split
  · exact ⟨_, rfl⟩
  · split <;> exact ⟨_, rfl⟩

/-- From a live state that meets the invariants every operation, enabled or not, answers a next state: the steps that could
want an operand, FG_CHECK, FG_ENCODE, FG_ARM and FG_RETURN, find it (log 10). -/
theorem exec_answers_of_inv (i : Instr) (hi : s.Inv) (hl : s.live) : ∃ t, exec i s = .next t := by
  cases i with
  | init => exact execInit_answers hl
  | update colors count => exact execUpdate_answers colors count hl
  | fgCheck => exact execFgCheck_answers hl fun hp => hi.cur_of_inCall (by simp [hp])
  | fgEncode =>
    refine execFgEncode_answers hl fun hp => ?_
    obtain ⟨cs, count, hc, hlen, -⟩ := hi.admitted_of_beforeArm (.inr (.inl hp))
    exact ⟨cs, count, hc, by omega⟩
  | fgArm =>
    refine execFgArm_answers hl fun hp => ?_
    obtain ⟨cs, count, hc, hlen, -⟩ := hi.admitted_of_beforeArm (.inr (.inr (.inr hp)))
    exact ⟨_, hc, (Int.natCast_nonneg _).trans_eq hlen⟩
  | fgReturn data => exact execFgReturn_answers data hl hi.status_of_return
  | dmaSend data => exact execDmaSend_answers data hl
  | fgDrain | fgPrepare | fgGapwait | dmaComplete | irqCompletion | timerTick => exact guarded_answers hl fun _ => ⟨_, rfl⟩

/-- An enabled step's state is live (10_state.md R26). -/
theorem State.live_of_enables {i : Instr} (h : s.enables i = true) : s.live := by
  simp only [State.enables, Bool.and_eq_true, decide_eq_true_eq] at h
  obtain ⟨⟨hl, -⟩, -⟩ := h
  exact hl

/-- Settles O31: an enabled step's state is live, and there the invariants supply every operand. -/
theorem enabledStepsComplete : Obligations.EnabledStepsComplete :=
  fun _ i hi he => exec_answers_of_inv i hi (State.live_of_enables he)

end Sys2Proof.Machine
end

section
/-! The state's rules (10_state.md): who writes a field (R16, R34), the source's three states (R33), the sticky fault and
refusal (R26), and the operation a step runs (R29). -/

namespace Sys2Proof.Machine

variable {s t : State}

/-! ## Who writes what -/

/-- The state with the fields that an operation can write, as its rule lists them, taken from another state. The count of
draws, the model's own, is INIT's (log 8). -/
def State.writtenBy (s : State) (i : Instr) (t : State) : State :=
  match i with
  | .init =>
    { s with
      ready := t.ready, txDone := t.txDone, line := t.line, timer := t.timer, dmaActive := t.dmaActive, dmaLen := t.dmaLen
      dmaIdx := t.dmaIdx, xferDone := t.xferDone, irqEn := t.irqEn, refused := t.refused, trace := t.trace, hpc := t.hpc
      draws := t.draws }
  | .update _ _ => { s with phase := t.phase, cur := t.cur, fault := t.fault, hpc := t.hpc }
  | .fgCheck => { s with phase := t.phase, status := t.status }
  | .fgDrain => { s with phase := t.phase }
  | .fgPrepare => { s with phase := t.phase, line := t.line, timer := t.timer, trace := t.trace }
  | .fgEncode => { s with phase := t.phase, buf := t.buf, fault := t.fault }
  | .fgGapwait => { s with phase := t.phase }
  | .fgArm =>
    { s with
      txDone := t.txDone, phase := t.phase, status := t.status, line := t.line, dmaActive := t.dmaActive
      dmaSrc := t.dmaSrc, dmaLen := t.dmaLen, dmaIdx := t.dmaIdx, trace := t.trace }
  | .fgReturn _ => { s with phase := t.phase, cur := t.cur, status := t.status, returns := t.returns }
  | .dmaSend _ => { s with dmaIdx := t.dmaIdx, fault := t.fault, trace := t.trace }
  | .dmaComplete => { s with dmaActive := t.dmaActive, xferDone := t.xferDone }
  | .irqCompletion => { s with txDone := t.txDone, line := t.line, xferDone := t.xferDone, trace := t.trace }
  | .timerTick => { s with timer := t.timer, trace := t.trace }

/-- The two tables agree (R34): a field that the table does not give the operation's agent stands. -/
theorem writtenBy_same {i : Instr} {f : Field} (hf : f ∉ fieldsWrittenBy i.agent) : f.same (s.writtenBy i t) s := by
  cases i <;> cases f <;> simp [Instr.agent, fieldsWrittenBy, Field.same, State.writtenBy] at hf ⊢

/-- No operation writes the parameters, the host's program or the schedule. -/
theorem writtenBy_keeps_parameters (i : Instr) : (s.writtenBy i t).params = s.params ∧
    (s.writtenBy i t).hostInput = s.hostInput ∧ (s.writtenBy i t).sched = s.sched := by
  cases i <;> exact ⟨rfl, rfl, rfl⟩

/-- What an operation leaves unchanged: its outcome is the state before it with none but the operation's fields written. -/
theorem exec_eq_writtenBy {i : Instr} (h : exec i s = .next t) : t = s.writtenBy i t := by
  cases i with
  | init => obtain ⟨-, ⟨-, -, rfl⟩ | ⟨-, -, rfl⟩ | rfl⟩ := execInit_next h <;> rfl
  | update colors count => obtain ⟨-, ⟨-, -, rfl⟩ | ⟨-, -, rfl⟩ | rfl⟩ := execUpdate_next h <;> rfl
  | fgCheck => obtain ⟨-, ⟨c, -, -, ⟨-, rfl⟩ | ⟨-, -, rfl⟩ | ⟨-, -, rfl⟩⟩ | rfl⟩ := execFgCheck_next h <;> rfl
  | fgDrain => obtain ⟨-, ⟨-, -, rfl⟩ | rfl⟩ := execFgDrain_next h <;> rfl
  | fgPrepare => obtain ⟨-, ⟨-, rfl⟩ | rfl⟩ := execFgPrepare_next h <;> rfl
  | fgEncode =>
    obtain ⟨-, ⟨cs, count, -, -, -, ⟨f, -, rfl⟩ | ⟨u, hu, rfl⟩⟩ | rfl⟩ := execFgEncode_next h
    · rfl
    · obtain ⟨m, rfl⟩ : ∃ m, u = s.withBuf m := ⟨u.buf, memWriteAll_frame hu⟩
      rfl
    · rfl
  | fgGapwait => obtain ⟨-, ⟨-, -, rfl⟩ | rfl⟩ := execFgGapwait_next h <;> rfl
  | fgArm => obtain ⟨-, ⟨c, -, -, -, rfl⟩ | rfl⟩ := execFgArm_next h <;> rfl
  | fgReturn data => obtain ⟨-, ⟨st, -, -, rfl⟩ | rfl⟩ := execFgReturn_next (data := data) h <;> rfl
  | dmaSend data =>
    obtain ⟨-, ⟨-, -, ⟨-, rfl⟩ | ⟨-, -, rfl⟩ | ⟨-, -, rfl⟩⟩ | rfl⟩ := execDmaSend_next (data := data) h <;> rfl
  | dmaComplete => obtain ⟨-, ⟨-, -, rfl⟩ | rfl⟩ := execDmaComplete_next h <;> rfl
  | irqCompletion => obtain ⟨-, ⟨-, -, rfl⟩ | rfl⟩ := execIrqCompletion_next h <;> rfl
  | timerTick => obtain ⟨-, ⟨-, rfl⟩ | rfl⟩ := execTimerTick_next h <;> rfl

/-- Settles O51: an outcome is the state before with fields of the operation's written, and those are its agent's by R34. -/
theorem agentsWriteOnlyTheirFields : Obligations.AgentsWriteOnlyTheirFields := by
  intro i s t h
  rw [exec_eq_writtenBy h]
  exact ⟨fun f hf => writtenBy_same hf, writtenBy_keeps_parameters i⟩

/-! ## TX_DONE -/

/-- Settles O52: INIT and IRQ_COMPLETION write true, FG_ARM writes false, and no other operation writes TX_DONE. -/
theorem txDoneWriters : Obligations.TxDoneWriters := by
  intro i s t h hne
  cases i with
  | init =>
    obtain ⟨-, ⟨-, -, rfl⟩ | ⟨-, -, rfl⟩ | rfl⟩ := execInit_next h
    · exact absurd rfl hne
    · exact .inl ⟨rfl, .inl rfl⟩
    · exact absurd rfl hne
  | fgArm =>
    obtain ⟨-, ⟨c, -, -, -, rfl⟩ | rfl⟩ := execFgArm_next h
    · exact .inr ⟨rfl, rfl⟩
    · exact absurd rfl hne
  | irqCompletion =>
    obtain ⟨-, ⟨-, -, rfl⟩ | rfl⟩ := execIrqCompletion_next h
    · exact .inl ⟨rfl, .inr rfl⟩
    · exact absurd rfl hne
  | update | fgCheck | fgDrain | fgPrepare | fgEncode | fgGapwait | fgReturn | dmaSend | dmaComplete | timerTick =>
    exact absurd (congrArg State.txDone (exec_eq_writtenBy h)) hne

/-! ## The source's three states -/

/-- What holds at the start of a run, and is kept by every turn and by the schedule moving on, holds in every reachable
state. -/
theorem Reachable.invariant {P : State → Prop} (hstart : ∀ {s}, s.isStart → P s)
    (hturn : ∀ {turn s t}, P s → stepTurn turn s = .next t → P t) (hsched : ∀ {s}, P s → P s.afterTurn)
    (hr : Reachable s) : P s := by
  induction hr with
  | start h => exact hstart h
  | turn _ _ h ih => exact hturn ih h
  | step _ h ih => exact hturn (hsched ih) (step_eq ▸ h)

/-- The controller comes to the phases between the drain and the transfer only from one of them, or by FG_DRAIN, which
waits for TX_DONE (R89, R93). -/
theorem exec_enters_beforeArm {i : Instr} (h : exec i s = .next t) (hp : t.phase.beforeArm) :
    s.phase.beforeArm ∨ (s.phase = .drain ∧ s.txDone = true) := by
  cases i with
  | update colors count =>
    obtain ⟨-, ⟨-, -, rfl⟩ | ⟨-, -, rfl⟩ | rfl⟩ := execUpdate_next h
    · simp [Phase.beforeArm] at hp
    · exact .inl hp
    · exact .inl hp
  | fgCheck =>
    obtain ⟨-, ⟨c, -, -, ⟨-, rfl⟩ | ⟨-, -, rfl⟩ | ⟨-, -, rfl⟩⟩ | rfl⟩ := execFgCheck_next h
    · simp [Phase.beforeArm] at hp
    · simp [Phase.beforeArm] at hp
    · simp [Phase.beforeArm] at hp
    · exact .inl hp
  | fgDrain =>
    obtain ⟨-, ⟨hd, hx, -⟩ | rfl⟩ := execFgDrain_next h
    · exact .inr ⟨hd, hx⟩
    · exact .inl hp
  | fgPrepare =>
    obtain ⟨-, ⟨hs, -⟩ | rfl⟩ := execFgPrepare_next h
    · exact .inl (.inl hs)
    · exact .inl hp
  | fgEncode =>
    obtain ⟨-, ⟨cs, count, hs, -⟩ | rfl⟩ := execFgEncode_next h
    · exact .inl (.inr (.inl hs))
    · exact .inl hp
  | fgGapwait =>
    obtain ⟨-, ⟨hs, -⟩ | rfl⟩ := execFgGapwait_next h
    · exact .inl (.inr (.inr (.inl hs)))
    · exact .inl hp
  | fgArm =>
    obtain ⟨-, ⟨c, hs, -⟩ | rfl⟩ := execFgArm_next h
    · exact .inl (.inr (.inr (.inr hs)))
    · exact .inl hp
  | fgReturn data =>
    obtain ⟨-, ⟨st, -, -, rfl⟩ | rfl⟩ := execFgReturn_next (data := data) h
    · simp [Phase.beforeArm] at hp
    · exact .inl hp
  | init | dmaSend | dmaComplete | irqCompletion | timerTick =>
    rw [exec_eq_writtenBy h] at hp
    exact .inl hp

/-- The part of R123 that R33 rests on: between the drain and the transfer TX_DONE is set, before INIT too. -/
def State.txDoneBeforeArm (s : State) : Prop := s.phase.beforeArm → s.txDone = true

/-- FG_ARM, which alone clears TX_DONE, leaves the phases before the transfer. -/
theorem exec_keeps_txDoneBeforeArm {i : Instr} (hs : s.txDoneBeforeArm) (h : exec i s = .next t) : t.txDoneBeforeArm := by
  intro hp
  have hx : s.txDone = true := (exec_enters_beforeArm h hp).elim hs And.right
  by_cases hne : t.txDone = s.txDone
  · exact hne.trans hx
  · obtain ⟨ht, -⟩ | ⟨-, rfl⟩ := txDoneWriters i s t h hne
    · exact ht
    · obtain ⟨-, ⟨c, -, -, -, rfl⟩ | rfl⟩ := execFgArm_next h
      · simp [Phase.beforeArm] at hp
      · exact hx

theorem stepTurn_keeps_txDoneBeforeArm {turn : Turn} (hs : s.txDoneBeforeArm) (h : stepTurn turn s = .next t) :
    t.txDoneBeforeArm := by
  obtain ⟨prog, -, ⟨-, -, rfl⟩ | ⟨i, -, he⟩⟩ := stepTurn_next h
  · exact hs
  · exact exec_keeps_txDoneBeforeArm hs he

theorem Reachable.txDoneBeforeArm (hr : Reachable s) : s.txDoneBeforeArm := by
  refine hr.invariant (fun {s} hstart => ?_) stepTurn_keeps_txDoneBeforeArm (fun hs => ?_)
  · obtain ⟨-, hp, -⟩ := hstart
    simp [State.txDoneBeforeArm, hp, Phase.beforeArm]
  · simpa [State.txDoneBeforeArm] using hs

/-- Settles O43: Idle and Armed differ in TX_DONE, Idle excludes Preparing, and Preparing keeps TX_DONE set. -/
theorem sourceStatesPartition : Obligations.SourceStatesPartition := by
  intro s hr _
  have hprep : s.preparing → s.txDone = true := fun hp => hr.txDoneBeforeArm (.inr hp)
  refine ⟨?_, fun ⟨hi, hp⟩ => hi.2 hp, fun ⟨hi, ha⟩ => ?_, fun ⟨hp, ha⟩ => ?_⟩
  · cases hx : s.txDone with
    | false => exact .inr (.inr hx)
    | true =>
      by_cases hp : s.preparing
      · exact .inr (.inl hp)
      · exact .inl ⟨hx, hp⟩
  · exact Bool.false_ne_true (ha.symm.trans hi.1)
  · exact Bool.false_ne_true (ha.symm.trans (hprep hp))

/-! ## The sticky fault and refusal -/

theorem guarded_of_fault {g : Prop} [Decidable g] {e : Out} {f : FaultRecord} (hf : s.fault = some f) :
    guarded s g e = .fault f.reason := by
  simp [guarded, hf]

theorem guarded_of_refused {g : Prop} [Decidable g] {e : Out} {r : Refusal} (hf : s.fault = none)
    (hr : s.refused = some r) : guarded s g e = .refused r := by
  simp [guarded, hf, hr]

/-- Settles O30: `enables` and `final` ask for a live state, and every operation is a guarded step, which stops first. -/
theorem stickyFaultStopsEveryStep : Obligations.StickyFaultStopsEveryStep := by
  intro i s hstop
  have hlive : ¬ s.live := fun ⟨hf, hr⟩ => hstop.elim (· hf) (· hr)
  obtain ⟨e, he⟩ := exec_eq_guarded i s
  rw [he]
  exact ⟨Bool.eq_false_iff.2 fun h => hlive (State.live_of_enables h), fun ⟨hf, hr, _⟩ => hlive ⟨hf, hr⟩,
    fun _ hf => guarded_of_fault hf, fun _ hf hr => guarded_of_refused hf hr⟩

/-! ## The operation a step runs -/

theorem step_of_sched_cons {turn : Turn} {ts : List Turn} (h : s.sched = turn :: ts) :
    step s = stepTurn turn { s with sched := ts } := by
  simp [step_eq, State.nextTurn, State.afterTurn, h]

theorem step_of_sched_nil (h : s.sched = []) :
    step s = stepTurn (Config.freeTurn s.draws) { s with draws := s.draws + 1 } := by
  simp [step_eq, State.nextTurn, State.afterTurn, h]

/-- HOST's turn runs `HOSTPROG[HPC]` (R29). -/
theorem stepTurn_host {prog : List HostCmd} {c : HostCmd} (hp : resolveInput s.hostInput = .ok prog)
    (hc : prog[s.hpc]? = some c) : stepTurn .host s = exec c.toInstr s := by
  simp [stepTurn, hp, fetch, hc]

/-- With no command left HOST's turn is no step (R29; log 3). -/
theorem stepTurn_host_done {prog : List HostCmd} (hp : resolveInput s.hostInput = .ok prog) (hlen : prog.length ≤ s.hpc)
    (hl : s.live) : stepTurn .host s = .next s := by
  have hc : prog[s.hpc]? = none := List.getElem?_eq_none hlen
  simp only [stepTurn, hp, fetch, hc]
  exact guarded_held hl id

/-- Settles O32: the step is one on the schedule's turn, whose operation comes from the decoded words. -/
theorem stepRunsTheDecodedOperation : Obligations.StepRunsTheDecodedOperation := by
  intro s ws prog ts hin hdec
  have hp : resolveInput s.hostInput = .ok prog := by rw [hin]; exact hdec
  refine ⟨fun c hs hc => ?_, fun w e _ hs => ?_, fun hl hs hlen => ?_, step_of_sched_nil⟩
  · rw [step_of_sched_cons hs]
    exact stepTurn_host hp hc
  · rw [step_of_sched_cons hs]
    exact stepTurn_internal e hp
  · rw [step_of_sched_cons hs]
    exact stepTurn_host_done hp hlen hl

end Sys2Proof.Machine
end

section
/-! The Pulse Buffer and the wire (20_memory.md): the cells of a pulse byte (R44), an access on either side of BUF_LEN
(R39), and FG_ENCODE out of the buffer's range (R39, R78). -/

namespace Sys2Proof.Machine

variable {s : State} {i : Nat} {v : Byte}

/-! ## The cells of a pulse byte -/

/-- A pulse starts high and ends low, and the bit is the level of the six cells between (R44, R72). -/
theorem shiftOut_pulse (bit : Bool) : shiftOut (pulse bit) = true :: List.replicate 6 bit ++ [false] := by
  cases bit <;> decide

theorem exists_pulse_of_mem_encodeChannel {v mask b : Byte} {k : Nat} (h : b ∈ encodeChannel v mask k) :
    ∃ bit, b = pulse bit := by
  induction k generalizing mask with
  | zero => cases h
  | succ k ih =>
    rcases List.mem_cons.1 h with hb | hb
    · exact ⟨_, hb⟩
    · exact ih hb

theorem exists_pulse_of_mem_encodePixel {c : Color} {b : Byte} (h : b ∈ encodePixel c) : ∃ bit, b = pulse bit := by
  simp only [encodePixel, List.mem_append] at h
  obtain (hb | hb) | hb := h <;> exact exists_pulse_of_mem_encodeChannel hb

/-- The encoder's output holds no byte but the two pulses (R72, R77). -/
theorem exists_pulse_of_mem_encodeColors {cs : List Color} {n : Nat} {b : Byte} (h : b ∈ encodeColors cs n) :
    ∃ bit, b = pulse bit := by
  obtain ⟨c, -, hb⟩ := List.mem_flatMap.1 h
  exact exists_pulse_of_mem_encodePixel hb

/-- Settles O13: every byte of an encoding is a pulse, whose first cell is high and whose last is low whatever the bit. -/
theorem pulsesOnTheWire : Obligations.PulsesOnTheWire := by
  refine ⟨shiftOut_pulse false, shiftOut_pulse true, fun cs n b hb => ?_⟩
  obtain ⟨bit, rfl⟩ := exists_pulse_of_mem_encodeColors hb
  rw [shiftOut_pulse]
  exact ⟨rfl, List.getLast?_concat⟩

/-! ## Accesses on either side of BUF_LEN -/

/-- BUF_LEN is 24 bytes a pixel (00_scope.md R9). -/
theorem State.bufLen_eq (s : State) : s.bufLen = 24 * s.params.maxPixels := rfl

theorem memRead_error (h : s.bufLen ≤ i) : memRead s i = .error .bufRange := if_pos h

theorem memWrite_error (h : s.bufLen ≤ i) : memWrite s i v = .error .bufRange := if_pos h

/-- A byte read after a write: the byte written at that offset, the byte before at every other. -/
theorem State.bufByte_withBuf_write (hw : Memory.wf s.buf) (j : Nat) :
    (s.withBuf (s.buf.write i v)).bufByte j = if i = j then v else s.bufByte j := by
  simp only [State.bufByte, State.withBuf_buf, Memory.read?_write _ _ _ _ hw]
  split <;> rfl

/-- Settles O14: BUF_LEN is 24 × MAX_PIXELS, and below it a write is `Memory.write` on the buffer alone, which keeps the
canonical form. -/
theorem bufferAccesses : Obligations.BufferAccesses := by
  intro s i v hw
  rw [← State.bufLen_eq]
  refine ⟨fun h => ⟨memRead_error h, memWrite_error h⟩, fun h => ⟨memRead_ok h, _, memWrite_ok h, rfl, ?_, ?_, ?_⟩⟩
  · exact Memory.wf_write i v hw
  · rw [State.bufByte_withBuf_write hw, if_pos rfl]
  · intro j hj
    rw [State.bufByte_withBuf_write hw, if_neg hj.symm]

/-! ## Consecutive writes out of the buffer's range -/

/-- Consecutive writes that start within the buffer or at its end and run past it meet BUF_RANGE. -/
theorem memWriteAll_error {vs : List Byte} (hi : i ≤ s.bufLen) (h : s.bufLen < i + vs.length) :
    memWriteAll s i vs = .error .bufRange := by
  induction vs generalizing s i with
  | nil => exact absurd h (Nat.not_lt.2 hi)
  | cons v vs ih =>
    rw [List.length_cons] at h
    simp only [memWriteAll]
    rcases Nat.lt_or_eq_of_le hi with hi | hi
    · rw [memWrite_ok hi]
      exact ih (by rw [State.withBuf_bufLen]; omega) (by rw [State.withBuf_bufLen]; omega)
    · rw [memWrite_error hi.ge]

/-- An enabled FG_ENCODE with colours enough for its count raises the fault that its writes meet (R78). -/
theorem execFgEncode_raises {cs : List Color} {count : Word} {f : Fault} (hl : s.live) (hp : s.phase = .encode)
    (hc : s.cur = some ⟨some cs, count⟩) (hlen : (sint32 count).toNat ≤ cs.length)
    (hw : memWriteAll s 0 (encodeColors cs (sint32 count).toNat) = .error f) : execFgEncode s = .next (s.raise f) := by
  rw [execFgEncode, guarded_enabled hl hp, hc]
  dsimp only
  rw [if_neg (Nat.not_lt.2 hlen), hw]

/-- Settles O21: more than MAX_PIXELS colours encode to more than BUF_LEN bytes, so the writes from offset 0 meet
BUF_RANGE, which FG_ENCODE raises on the state it found. -/
theorem fgEncodeOutOfRangeFaults : Obligations.FgEncodeOutOfRangeFaults := by
  intro s cs count hl hp hc hlen hmax
  have hn : (sint32 count).toNat = cs.length := by omega
  have hrange : s.bufLen < 0 + (encodeColors cs (sint32 count).toNat).length := by
    rw [State.bufLen_eq, encodeColors_length, hn]
    omega
  exact execFgEncode_raises hl hp hc hn.le (memWriteAll_error (Nat.zero_le _) hrange)

end Sys2Proof.Machine
end

section
/-! The encoding (30_encoding.md): one equation for every answer of the command port's loop (R65), the round trip of an
operation and of a program (R57 to R64, R67), and the refusals (R66). -/

namespace Sys2Proof

/-! ## Fields as numbers -/

theorem opOf_toNat (w : Word) : (opOf w).toNat = w.toNat / 2 ^ 24 := by
  have := w.isLt
  simp only [opOf, BitVec.extractLsb'_toNat, Nat.shiftRight_eq_div_pow]
  omega

theorem rsvdOf_toNat (w : Word) : (rsvdOf w).toNat = w.toNat / 2 % 2 ^ 23 := by
  simp [rsvdOf, Nat.shiftRight_eq_div_pow]

theorem colorOf_eq_ofNat (w : Word) : colorOf w = BitVec.ofNat 24 (w.toNat % 2 ^ 24) := by
  apply BitVec.eq_of_toNat_eq
  simp [colorOf]

theorem colorOf_toNat (w : Word) : (colorOf w).toNat = w.toNat % 2 ^ 24 := by
  simp [colorOf_eq_ofNat]

theorem cnullOf_eq_false_iff (w : Word) : cnullOf w = false ↔ w.toNat % 2 = 0 := by
  simp [cnullOf, BitVec.getLsbD, Nat.testBit_zero]

theorem opOf_eq_iff (w : Word) (op : Byte) : opOf w = op ↔ w.toNat / 2 ^ 24 = op.toNat := by
  rw [← opOf_toNat, BitVec.toNat_inj]

theorem rsvdOf_eq_zero_iff (w : Word) : rsvdOf w = 0 ↔ w.toNat / 2 % 2 ^ 23 = 0 := by
  rw [← rsvdOf_toNat]
  exact BitVec.toNat_inj.symm

theorem colorOf_eq_zero_iff (w : Word) : colorOf w = 0 ↔ w.toNat % 2 ^ 24 = 0 := by
  rw [← colorOf_toNat]
  exact BitVec.toNat_inj.symm

/-! ## The count of colour words -/

/-- With null colours no colour word follows the COUNT word (R62). -/
@[simp] theorem colourWords_null (count : Word) : colourWords true count = 0 := by
  simp [colourWords]

/-- A count below 1 announces no colour word, as `Int.toNat` has it (R62). -/
@[simp] theorem colourWords_colours (count : Word) : colourWords false count = (sint32 count).toNat := by
  simp only [colourWords, true_and]
  split <;> omega

/-- A COUNT word of 0 announces none (R62). -/
@[simp] theorem colourWords_zero (cnull : Bool) : colourWords cnull 0 = 0 := by
  cases cnull <;> rfl

/-- R64 for colours that are not null: as many as the colour words of the count. -/
theorem operandsWellFormed_some_iff (cs : List Color) (count : Word) :
    operandsWellFormed (some cs) count = true ↔ cs.length = (sint32 count).toNat := by
  simp only [operandsWellFormed]
  split
  · rw [decide_eq_true_iff]
    omega
  · rw [List.isEmpty_iff, ← List.length_eq_zero_iff]
    omega

/-! ## One turn of the decoder's loop -/

section
variable {w0 w1 : Word} {ws cws rest : List Word}

theorem decodeCommand_init (hop : opOf w0 = 0x01) (hbits : colorOf w0 = 0) :
    decodeCommand (w0 :: rest) = .ok (.init, rest) := by
  simp [decodeCommand, hop, hbits]

/-- The operands of R62, and the words after them. -/
theorem decodeCommand_update (hop : opOf w0 = 0x02) (hbits : rsvdOf w0 = 0)
    (hlen : cws.length = colourWords (cnullOf w0) w1) :
    decodeCommand (w0 :: w1 :: (cws ++ rest)) =
      .ok (.update (if cnullOf w0 then none else some (cws.map colorOf)) w1, rest) := by
  simp [decodeCommand, hop, hbits, ← hlen]

theorem decodeCommand_reservedOp (hinit : opOf w0 ≠ 0x01) (hupdate : opOf w0 ≠ 0x02) :
    decodeCommand (w0 :: ws) = .error .reservedOp := by
  simp only [decodeCommand, if_neg hinit, if_neg hupdate]

theorem decodeCommand_init_reservedBits (hop : opOf w0 = 0x01) (hbits : colorOf w0 ≠ 0) :
    decodeCommand (w0 :: ws) = .error .reservedBits := by
  simp only [decodeCommand, if_pos hop, if_neg hbits]

theorem decodeCommand_update_reservedBits (hop : opOf w0 = 0x02) (hbits : rsvdOf w0 ≠ 0) :
    decodeCommand (w0 :: ws) = .error .reservedBits := by
  have hinit : opOf w0 ≠ 0x01 := by rw [hop]; decide
  simp only [decodeCommand, if_neg hinit, if_pos hop, if_neg hbits]

theorem decodeCommand_update_noCount (hop : opOf w0 = 0x02) (hbits : rsvdOf w0 = 0) :
    decodeCommand [w0] = .error .truncated := by
  simp [decodeCommand, hop, hbits]

theorem decodeCommand_update_fewColours (hop : opOf w0 = 0x02) (hbits : rsvdOf w0 = 0)
    (hlen : cws.length < colourWords (cnullOf w0) w1) : decodeCommand (w0 :: w1 :: cws) = .error .truncated := by
  simp [decodeCommand, hop, hbits, hlen]

/-- All that the decoder answers a command by: an INIT word, or an UPDATE transaction with the colour words of R62. -/
theorem decodeCommand_ok {c : HostCmd} (h : decodeCommand ws = .ok (c, rest)) :
    (∃ w0, ws = w0 :: rest ∧ opOf w0 = 0x01 ∧ colorOf w0 = 0 ∧ c = .init) ∨
      ∃ w0 w1 cws, ws = w0 :: w1 :: (cws ++ rest) ∧ opOf w0 = 0x02 ∧ rsvdOf w0 = 0 ∧
        cws.length = colourWords (cnullOf w0) w1 ∧
        c = .update (if cnullOf w0 then none else some (cws.map colorOf)) w1 := by
  unfold decodeCommand at h
  split at h
  · cases h
  · next w0 ws =>
    split at h
    · next hinit =>
      split at h
      · next hbits =>
        cases h
        exact .inl ⟨w0, rfl, hinit, hbits, rfl⟩
      · cases h
    · split at h
      · next hupdate =>
        split at h
        · next hbits =>
          split at h
          · cases h
          · next w1 tail =>
            split at h
            · cases h
            · next hlen =>
              cases h
              refine .inr ⟨w0, w1, tail.take (colourWords (cnullOf w0) w1), ?_, hupdate, hbits, ?_, rfl⟩
              · rw [List.take_append_drop]
              · exact List.length_take_of_le (Nat.not_lt.1 hlen)
        · cases h
      · cases h

/-- A decoded command's first word has no event code (R59). -/
theorem decodeCommand_code {c : HostCmd} (h : decodeCommand ws = .ok (c, rest)) :
    ∃ w0 tail, ws = w0 :: tail ∧ isEventCode (opOf w0) = false := by
  obtain ⟨w0, rfl, hop, -⟩ | ⟨w0, w1, cws, rfl, hop, -⟩ := decodeCommand_ok h
  · exact ⟨w0, _, rfl, by rw [hop]; decide⟩
  · exact ⟨w0, _, rfl, by rw [hop]; decide⟩

/-- A decoded command's colour list is as long as its count announces (R64). -/
theorem decodeCommand_wellFormed {c : HostCmd} (h : decodeCommand ws = .ok (c, rest)) : c.wellFormed = true := by
  obtain ⟨w0, -, -, -, rfl⟩ | ⟨w0, w1, cws, -, -, -, hlen, rfl⟩ := decodeCommand_ok h
  · rfl
  · cases hnull : cnullOf w0 with
    | true => rfl
    | false =>
      rw [hnull, colourWords_colours] at hlen
      exact (operandsWellFormed_some_iff _ _).2 (by rw [List.length_map, hlen])

end

/-- A well-formed command is read back from its words, and the words after them are left. -/
theorem decodeCommand_encode {c : HostCmd} (rest : List Word) (hc : c.wellFormed = true) :
    decodeCommand (c.encode ++ rest) = .ok (c, rest) := by
  match c, hc with
  | .init, _ => exact decodeCommand_init (opOf_commandWord _ _) (colorOf_commandWord _)
  | .update none count, _ =>
    have h := decodeCommand_update (w0 := commandWord 0x02 true) (w1 := count) (cws := []) (rest := rest)
      (opOf_commandWord _ _) (rsvdOf_commandWord _ _) (by simp)
    simpa [HostCmd.encode] using h
  | .update (some cs) count, hc =>
    have hlen := (operandsWellFormed_some_iff cs count).1 hc
    have h := decodeCommand_update (w0 := commandWord 0x02 false) (w1 := count) (cws := cs.map colorWord) (rest := rest)
      (opOf_commandWord _ _) (rsvdOf_commandWord _ _) (by simp [hlen])
    simpa [HostCmd.encode, Function.comp_def] using h

/-! ## Any operation -/

theorem decode_of_decodeCommand {ws rest : List Word} {c : HostCmd} (h : decodeCommand ws = .ok (c, rest)) :
    decode ws = .ok (c.toInstr, rest) := by
  obtain ⟨w0, tail, rfl, hcode⟩ := decodeCommand_code h
  simp [decode, hcode, h]

/-- An internal step's code is an event code (R59). -/
theorem isEventCode_code (e : Event) : isEventCode e.code = true := by
  cases e <;> dsimp only [Event.code] <;> decide

/-- An event word is one word, and the words after it are left (R67). -/
theorem decode_event (e : Event) (rest : List Word) : decode (e.encode :: rest) = .ok (e.toInstr, rest) := by
  have hop : opOf e.encode = e.code := opOf_eventWord _ _
  simp [decode, hop, isEventCode_code, decodeEvent_encode]

/-- R67's table holds each code only with its own step. -/
theorem code_of_eventOfCode {code data : Byte} {e : Event} (h : eventOfCode code data = some e) : code = e.code := by
  unfold eventOfCode at h
  repeat' split at h
  case isFalse => cases h
  all_goals
    next hcode =>
      cases h
      exact hcode

theorem isEventCode_of_decodeEvent {w : Word} {e : Event} (h : decodeEvent w = .ok e) : isEventCode (opOf w) = true := by
  unfold decodeEvent at h
  split at h
  · cases h
  · next e' he =>
    rw [code_of_eventOfCode he]
    exact isEventCode_code e'

/-- All that the decoder answers an operation by: an event word, or a command's transaction. -/
theorem decode_ok {ws rest : List Word} {i : Instr} (h : decode ws = .ok (i, rest)) :
    (∃ w e, ws = w :: rest ∧ decodeEvent w = .ok e ∧ i = e.toInstr) ∨
      ∃ c, decodeCommand ws = .ok (c, rest) ∧ i = c.toInstr := by
  unfold decode at h
  split at h
  · cases h
  · next w tail =>
    split at h
    · split at h
      · cases h
      · next e he =>
        cases h
        exact .inl ⟨w, e, rfl, he, rfl⟩
    · split at h
      · cases h
      · next c tail' hc =>
        cases h
        exact .inr ⟨c, hc, rfl⟩

theorem decode_of_decodeTableWord {nbits w : Nat} {i : Instr} (h : decodeTableWord nbits w = some i) :
    ∃ rest, decode (paddedTableWords nbits w) = .ok (i, rest) := by
  unfold decodeTableWord at h
  split at h
  · cases h
  · next j rest hdec =>
    cases h
    exact ⟨rest, hdec⟩

/-- Every operation is a host command or an internal step (R59). -/
theorem Instr.eq_toInstr (i : Instr) : (∃ c : HostCmd, i = c.toInstr) ∨ ∃ e : Event, i = e.toInstr := by
  cases i with
  | init => exact .inl ⟨.init, rfl⟩
  | update colors count => exact .inl ⟨.update colors count, rfl⟩
  | fgCheck => exact .inr ⟨.fgCheck, rfl⟩
  | fgDrain => exact .inr ⟨.fgDrain, rfl⟩
  | fgPrepare => exact .inr ⟨.fgPrepare, rfl⟩
  | fgEncode => exact .inr ⟨.fgEncode, rfl⟩
  | fgGapwait => exact .inr ⟨.fgGapwait, rfl⟩
  | fgArm => exact .inr ⟨.fgArm, rfl⟩
  | fgReturn data => exact .inr ⟨.fgReturn data, rfl⟩
  | dmaSend data => exact .inr ⟨.dmaSend data, rfl⟩
  | dmaComplete => exact .inr ⟨.dmaComplete, rfl⟩
  | irqCompletion => exact .inr ⟨.irqCompletion, rfl⟩
  | timerTick => exact .inr ⟨.timerTick, rfl⟩

theorem encode_command (c : HostCmd) : encode c.toInstr = c.encode := by
  cases c <;> rfl

theorem encode_event (e : Event) : encode e.toInstr = [e.encode] := by
  cases e <;> rfl

theorem wellFormed_command (c : HostCmd) : c.toInstr.wellFormed = c.wellFormed := by
  cases c <;> rfl

/-- Settles O3: a command is read back by the command port's decoder, and an internal step from its one event word. -/
theorem decodeOfEncodeIsTheOperation : Obligations.DecodeOfEncodeIsTheOperation := by
  intro i rest hi
  obtain ⟨c, rfl⟩ | ⟨e, rfl⟩ := i.eq_toInstr
  · rw [encode_command]
    exact decode_of_decodeCommand (decodeCommand_encode rest (wellFormed_command c ▸ hi))
  · rw [encode_event]
    exact decode_event e rest

/-! ## Programs -/

theorem decodeProgram_of_ok {ws rest : List Word} {c : HostCmd} (h : decodeCommand ws = .ok (c, rest)) :
    decodeProgram ws = (decodeProgram rest).map (c :: ·) := by
  cases ws with
  | nil => cases h
  | cons w ws =>
    rw [decodeProgram_cons, h]
    dsimp only
    cases decodeProgram rest <;> rfl

theorem decodeProgram_of_error {w : Word} {ws : List Word} {r : DecodeRefusal} (h : decodeCommand (w :: ws) = .error r) :
    decodeProgram (w :: ws) = .error r := by
  rw [decodeProgram_cons, h]

/-- The words of well-formed commands decode to them, whatever the words after them decode to or are refused for. -/
theorem decodeProgram_encodeProgram_append {cs : List HostCmd} (hcs : ∀ c ∈ cs, c.wellFormed = true) (ws : List Word) :
    decodeProgram (encodeProgram cs ++ ws) = (decodeProgram ws).map (cs ++ ·) := by
  induction cs with
  | nil =>
    change decodeProgram ws = _
    cases decodeProgram ws <;> rfl
  | cons c cs ih =>
    obtain ⟨hc, hcs⟩ := List.forall_mem_cons.1 hcs
    have hsplit : encodeProgram (c :: cs) ++ ws = c.encode ++ (encodeProgram cs ++ ws) := List.append_assoc ..
    rw [hsplit, decodeProgram_of_ok (decodeCommand_encode _ hc), ih hcs]
    cases decodeProgram ws <;> rfl

/-- A refusal after well-formed commands refuses the program (R57). -/
theorem decodeProgram_encodeProgram_error {cs : List HostCmd} {w : Word} {ws : List Word} {r : DecodeRefusal}
    (hcs : ∀ c ∈ cs, c.wellFormed = true) (h : decodeCommand (w :: ws) = .error r) :
    decodeProgram (encodeProgram cs ++ w :: ws) = .error r := by
  rw [decodeProgram_encodeProgram_append hcs, decodeProgram_of_error h]
  rfl

/-- Settles O4: the program's words with no word after them. -/
theorem programRoundTrip : Obligations.ProgramRoundTrip := by
  intro cs hcs
  have h := decodeProgram_encodeProgram_append hcs []
  rw [List.append_nil] at h
  rw [h]
  exact congrArg Except.ok (List.append_nil cs)

/-- A decoded program's first command is what the decoder's first turn answers. -/
theorem decodeProgram_ok_cons {ws : List Word} {c : HostCmd} {cs : List HostCmd} (h : decodeProgram ws = .ok (c :: cs)) :
    ∃ rest, decodeCommand ws = .ok (c, rest) ∧ decodeProgram rest = .ok cs := by
  cases ws with
  | nil => cases h
  | cons w ws =>
    rw [decodeProgram_cons] at h
    split at h
    · cases h
    · next c' rest hd =>
      split at h
      · cases h
      · next cs' hp =>
        cases h
        exact ⟨rest, hd, hp⟩

/-- Settles O5: each turn of the decoder's loop answers a well-formed command, by induction on the decoded commands. -/
theorem decodedTermsAreWellFormed : Obligations.DecodedTermsAreWellFormed := by
  intro ws cs
  induction cs generalizing ws with
  | nil => exact fun _ _ hc => absurd hc List.not_mem_nil
  | cons c cs ih =>
    intro h
    obtain ⟨rest, hc, hcs⟩ := decodeProgram_ok_cons h
    exact List.forall_mem_cons.2 ⟨decodeCommand_wellFormed hc, ih rest hcs⟩

/-- Settles O6: each of the three cases has the colour words of R62, and `colorOf` reads bits 23:0. -/
theorem updateOperandsAssembled : Obligations.UpdateOperandsAssembled := by
  intro w0 w1 cws rest hop hbits hcws
  have hlen : cws.length = colourWords (cnullOf w0) w1 := by
    obtain ⟨hnull, rfl⟩ | ⟨hnull, hpos, hlen⟩ | ⟨hnull, hneg, rfl⟩ := hcws
    · simp [hnull]
    · rw [hnull, colourWords_colours]
      omega
    · rw [hnull, colourWords_colours, List.length_nil]
      omega
  rw [decodeCommand_update hop hbits hlen, funext colorOf_eq_ofNat]

/-! ## Refusals -/

/-- Settles O7: the word after the commands is one that the decoder's turn refuses. -/
theorem reservedEncodingsAreRefused : Obligations.ReservedEncodingsAreRefused := by
  intro cs w ws hcs
  refine ⟨fun hinit hupdate => ?_, fun hop hbits => ?_, fun hop hbits => ?_⟩ <;>
    apply decodeProgram_encodeProgram_error hcs
  · exact decodeCommand_reservedOp (mt (opOf_eq_iff w _).1 hinit) (mt (opOf_eq_iff w _).1 hupdate)
  · exact decodeCommand_init_reservedBits ((opOf_eq_iff w _).2 hop) (mt (colorOf_eq_zero_iff w).1 hbits)
  · exact decodeCommand_update_reservedBits ((opOf_eq_iff w _).2 hop) (mt (rsvdOf_eq_zero_iff w).1 hbits)

/-- Settles O8: the decoder's turn finds no COUNT word, or fewer colour words than the count announces. -/
theorem truncatedTransactionsAreRefused : Obligations.TruncatedTransactionsAreRefused := by
  intro cs w0 hcs hop hbits
  have hop : opOf w0 = 0x02 := (opOf_eq_iff w0 _).2 hop
  have hbits : rsvdOf w0 = 0 := (rsvdOf_eq_zero_iff w0).2 hbits
  refine ⟨decodeProgram_encodeProgram_error hcs (decodeCommand_update_noCount hop hbits), fun w1 cws hnull hlen => ?_⟩
  have hfew : cws.length < colourWords (cnullOf w0) w1 := by
    rw [(cnullOf_eq_false_iff w0).2 hnull, colourWords_colours]
    omega
  exact decodeProgram_encodeProgram_error hcs (decodeCommand_update_fewColours hop hbits hfew)

/-! ## The tables' own rows -/

/-- Settles O2: each row's word is its step's event word, and the two refusals are evaluated. -/
theorem eventTableDecodes : Obligations.EventTableDecodes :=
  ⟨decode_event .fgCheck [], decode_event .fgDrain [], decode_event .fgPrepare [], decode_event .fgEncode [],
    decode_event .fgGapwait [], decode_event .fgArm [], decode_event (.fgReturn 0x02) [], decode_event (.dmaSend 0xFE) [],
    decode_event .dmaComplete [], decode_event .irqCompletion [], decode_event .timerTick [], by decide, by decide⟩

end Sys2Proof
end

section
/-! The encoding at the machine (30_encoding.md): the examples as text (R70), the data of a step log's event words (R67),
a program without a meaning (R57, R64), and an operation placed for the next step (log 2). -/

namespace Sys2Proof.Machine

variable {s t : State}

/-- Settles O1: the decoder and the assembler evaluated on R70's rows. -/
theorem encodingExamplesOfTheSpec : Obligations.EncodingExamplesOfTheSpec := by
  unfold Obligations.EncodingExamplesOfTheSpec
  decide

/-! ## The data of an event word -/

/-- Where its guard holds, a guarded step answers what its effect does. -/
theorem guarded_next_of_guard {g : Prop} [Decidable g] {e : Out} (hg : g) (h : guarded s g e = .next t) :
    e = .next t := by
  obtain ⟨-, ⟨-, he⟩ | ⟨hn, -⟩⟩ := guarded_next h
  · exact he
  · exact absurd hg hn

/-- An enabled DMA_SEND that raises no fault puts the byte at DMA_IDX on the wire (R95). -/
theorem execDmaSend_trace {data : Byte} (h : execDmaSend data s = .next t) (hg : guardHolds (.dmaSend data) s = true)
    (hf : t.fault = none) : t.trace = s.trace ++ [.byte (s.bufByte s.dmaIdx)] := by
  have he := guarded_next_of_guard (by simpa [guardHolds] using hg) h
  split at he
  · cases he
    cases hf
  · rcases Nat.lt_or_ge s.dmaIdx s.bufLen with hi | hi
    · rw [memRead_ok hi] at he
      cases he
      rfl
    · rw [memRead_error hi] at he
      cases he
      cases hf

/-- An enabled FG_RETURN returns STATUS (R86). -/
theorem execFgReturn_returns {data : Byte} (h : execFgReturn data s = .next t) (hg : guardHolds (.fgReturn data) s = true) :
    ∃ st, s.status = some st ∧ t.returns = s.returns ++ [st] := by
  have he := guarded_next_of_guard (of_decide_eq_true hg) h
  split at he
  · cases he
  · next st hst =>
    cases he
    exact ⟨st, hst, rfl⟩

/-- Settles O9: `logWord` records the byte at DMA_IDX and the code of STATUS, which are what the two steps append. -/
theorem eventWordsRecordTheData : Obligations.EventWordsRecordTheData := by
  intro s t data
  refine ⟨fun h hg hf => ⟨_, execDmaSend_trace h hg hf, rfl⟩, fun h hg => ?_⟩
  obtain ⟨st, hst, hr⟩ := execFgReturn_returns h hg
  exact ⟨st, hr, by simp [logWord, hst]⟩

/-! ## A program without a meaning -/

/-- A program without a meaning stops the run whatever turn is due (R57, R104). -/
theorem step_of_unresolved {r : DecodeRefusal} (h : resolveInput s.hostInput = .error r) :
    step s = .refused (.ofDecode r) := by
  simp [step_eq, stepTurn, h]

/-- Settles O33: words that do not decode are a program without a meaning. -/
theorem undecodableProgramStopsBeforeAnyStep : Obligations.UndecodableProgramStopsBeforeAnyStep := by
  intro s ws r hin hdec
  exact step_of_unresolved (by rw [hin]; exact hdec)

theorem checkTerms_malformed {cs : List HostCmd} {c : HostCmd} (hc : c ∈ cs) (hw : c.wellFormed = false) :
    checkTerms cs = .error .malformed :=
  if_neg fun h => by simp [List.all_eq_true.1 h c hc] at hw

/-- Settles O34: terms that fail their check are a program without a meaning. -/
theorem illFormedTermIsMalformed : Obligations.IllFormedTermIsMalformed := by
  intro s cs c hin hc hw
  exact step_of_unresolved (r := .malformed) (by rw [hin]; exact checkTerms_malformed hc hw)

/-! ## An operation placed for the next step -/

/-- A 32-bit table word is one word, with a COUNT word of 0 after it for UPDATE (R60). -/
theorem paddedTableWords_32 (w : Nat) : ∃ w0, paddedTableWords 32 w = w0 :: if opOf w0 = 0x02 then [0] else [] := by
  refine ⟨BitVec.ofNat 32 (w % 2 ^ 32 / 2 ^ (32 * 0)), ?_⟩
  have htable : tableWords 32 w = [BitVec.ofNat 32 (w % 2 ^ 32 / 2 ^ (32 * 0))] := rfl
  rw [paddedTableWords, htable, transactionWords, List.headD_nil, colourWords_zero]
  split <;> rfl

/-- The words of a 32-bit table word that the decoder reads as a command hold that command alone. -/
theorem decodeProgram_paddedTableWords {w : Nat} {c : HostCmd} {rest : List Word}
    (h : decodeCommand (paddedTableWords 32 w) = .ok (c, rest)) : decodeProgram (paddedTableWords 32 w) = .ok [c] := by
  have hrest : rest = [] := by
    obtain ⟨w0, hw⟩ := paddedTableWords_32 w
    rw [hw] at h
    obtain ⟨w0', hws, hop, -⟩ | ⟨w0', w1, cws, hws, hop, -⟩ := decodeCommand_ok h
    · obtain ⟨rfl, htail⟩ := List.cons.inj hws
      simpa [hop] using htail.symm
    · obtain ⟨rfl, htail⟩ := List.cons.inj hws
      rw [if_pos hop] at htail
      exact (List.append_eq_nil_iff.1 (List.cons.inj htail).2.symm).2
  rw [decodeProgram_of_ok h, hrest]
  rfl

/-- INIT words before a command's words leave it at HPC (log 2). -/
theorem decodeProgram_replicate_init {ws : List Word} {c : HostCmd} (n : Nat) (h : decodeProgram ws = .ok [c]) :
    decodeProgram (List.replicate n 0x01000000 ++ ws) = .ok (List.replicate n .init ++ [c]) := by
  have henc : encodeProgram (List.replicate n .init) = List.replicate n 0x01000000 := by
    have hinit : HostCmd.init.encode = [0x01000000] := by decide
    rw [encodeProgram, List.flatMap_replicate, hinit, List.flatten_replicate_singleton]
  rw [← henc, decodeProgram_encodeProgram_append (by simp [HostCmd.wellFormed]), h]
  rfl

/-- A placed event word has its step's turn come next. -/
theorem step_place_event {prog : List HostCmd} {w : Word} {ws : List Word} {e : Event}
    (hp : resolveInput s.hostInput = .ok prog) (he : decodeEvent w = .ok e) :
    step (s.place (w :: ws)) = exec e.toInstr s := by
  have hplace : s.place (w :: ws) = { s with sched := .internal e :: s.sched } := by
    simp only [State.place, he]
  rw [hplace, step_of_sched_cons rfl]
  exact stepTurn_internal e hp

/-- Placed words that decode to one command make it `HOSTPROG[HPC]` and HOST's turn come next. -/
theorem step_place_command {w : Word} {ws : List Word} {c : HostCmd} (hw : isEventCode (opOf w) = false)
    (hdec : decodeProgram (w :: ws) = .ok [c]) :
    step (s.place (w :: ws)) =
      exec c.toInstr { s with hostInput := .words (List.replicate s.hpc 0x01000000 ++ w :: ws) } := by
  have hplace : s.place (w :: ws) =
      { s with hostInput := .words (List.replicate s.hpc 0x01000000 ++ w :: ws), sched := .host :: s.sched } := by
    unfold State.place
    cases he : decodeEvent w with
    | ok e => exact absurd (isEventCode_of_decodeEvent he) (Bool.eq_false_iff.1 hw)
    | error r => simp only [he]
  rw [hplace, step_of_sched_cons rfl]
  exact stepTurn_host (decodeProgram_replicate_init s.hpc hdec) (by simp)

/-- Settles O35: an event's word goes to the head of the schedule, and a command's words become `HOSTPROG[HPC]` with
HOST's turn at its head. -/
theorem placedWordIsRunNext : Obligations.PlacedWordIsRunNext := by
  intro s w i prog hp hw
  obtain ⟨rest, hdec⟩ := decode_of_decodeTableWord hw
  unfold State.withFetchWord
  obtain ⟨w0, e, hws, he, rfl⟩ | ⟨c, hc, rfl⟩ := decode_ok hdec
  · rw [hws]
    exact ⟨s.hostInput, step_place_event hp he⟩
  · obtain ⟨w0, tail, hws, hcode⟩ := decodeCommand_code hc
    have hone := decodeProgram_paddedTableWords hc
    rw [hws] at hone ⊢
    exact ⟨_, step_place_command hcode hone⟩

end Sys2Proof.Machine
end

section
/-! The Encoder (40_encoder.md): the closed form and the lanes of a pixel's encoding (R75, R76), the place of every bit in
an encoding (R77), and what FG_ENCODE leaves in the Pulse Buffer (R78, R79, R82). -/

namespace Sys2Proof.Machine

/-! ## A channel's encoding -/

/-- The mask shifted right selects the bit below (R74). -/
theorem twoPow_succ_ushiftRight_one {j : Nat} (hj : j + 1 < 8) :
    BitVec.twoPow 8 (j + 1) >>> 1 = BitVec.twoPow 8 j := by
  ext i hi
  simp only [BitVec.getElem_ushiftRight, BitVec.getLsbD_twoPow, BitVec.getElem_twoPow, hj, decide_true, Bool.true_and,
    Nat.add_comm 1 i, Nat.add_right_cancel_iff, eq_comm]

/-- A value masked with one bit is nonzero exactly when it has the bit. -/
theorem and_twoPow_ne_zero (v : Byte) {j : Nat} (hj : j < 8) : (v &&& BitVec.twoPow 8 j != 0) = v.getLsbD j := by
  have hmask : BitVec.twoPow 8 j ≠ 0#8 := fun h => by
    have hbit := congrArg (BitVec.getLsbD · j) h
    simp [hj] at hbit
  rw [BitVec.and_twoPow]
  cases v.getLsbD j with
  | true => simpa using hmask
  | false => rfl

/-- From mask bit j the loop of R74 emits the pulses of bits j down to 0. -/
theorem encodeChannel_twoPow_getElem? (v : Byte) {j i : Nat} (hj : j < 8) (hi : i ≤ j) :
    (encodeChannel v (BitVec.twoPow 8 j) (j + 1))[i]? = some (pulse (v.getLsbD (j - i))) := by
  induction j generalizing i with
  | zero =>
    obtain rfl := Nat.le_zero.1 hi
    rw [encodeChannel, and_twoPow_ne_zero v hj]
    rfl
  | succ j ih =>
    rw [encodeChannel, and_twoPow_ne_zero v hj, twoPow_succ_ushiftRight_one hj]
    cases i with
    | zero => rfl
    | succ i =>
      rw [List.getElem?_cons_succ, ih (by omega) (by omega), Nat.add_sub_add_right]

/-- A channel's 8 bytes are the pulses of its bits, bit 7 first (R74). -/
theorem encodeChannel_getElem? (v : Byte) {i : Nat} (hi : i < 8) :
    (encodeChannel v 0x80 8)[i]? = some (pulse (v.getLsbD (7 - i))) :=
  encodeChannel_twoPow_getElem? v (j := 7) (by decide) (by omega)

/-! ## A pixel's encoding -/

/-- Lane k of a pixel's encoding is the encoding of channel k (R74, R76). -/
theorem encodePixel_lane (c : Color) (k : Fin 3) {i : Nat} (hi : i < 8) :
    (encodePixel c)[8 * k.val + i]? = (encodeChannel (channel c k) 0x80 8)[i]? := by
  match k with
  | 0 =>
    rw [encodePixel, List.append_assoc, List.getElem?_append_left (by rw [encodeChannel_length]; omega)]
    simp
  | 1 =>
    rw [encodePixel, List.getElem?_append_left (by simp only [List.length_append, encodeChannel_length]; omega),
      List.getElem?_append_right (by simp)]
    simp
  | 2 =>
    rw [encodePixel, List.getElem?_append_right (by simp)]
    simp

/-- Element i of lane k is the pulse of bit 7 − i of channel k (R76). -/
theorem encodePixel_lane_pulse (c : Color) (k : Fin 3) {i : Nat} (hi : i < 8) :
    (encodePixel c)[8 * k.val + i]? = some (pulse ((channel c k).getLsbD (7 - i))) := by
  rw [encodePixel_lane c k hi, encodeChannel_getElem? _ hi]

/-- Bit 7 − i of channel k is bit 23 − (8k + i) of the colour (R73). -/
theorem channel_getLsbD (c : Color) (k : Fin 3) {i : Nat} (hi : i < 8) :
    (channel c k).getLsbD (7 - i) = c.getLsbD (23 - (8 * k.val + i)) := by
  have hbit : 7 - i < 8 := by omega
  match k with
  | 0 | 1 | 2 =>
    simp only [channel, BitVec.getLsbD_extractLsb', hbit, decide_true, Bool.true_and]
    congr 1
    omega

/-- The closed form of a pixel's encoding (R75). -/
theorem encodePixel_getElem? (c : Color) {j : Nat} (hj : j < 24) :
    (encodePixel c)[j]? = some (pulse (c.getLsbD (23 - j))) := by
  have hi : j % 8 < 8 := Nat.mod_lt _ (by decide)
  have h := encodePixel_lane_pulse c ⟨j / 8, by omega⟩ hi
  rwa [channel_getLsbD _ _ hi, Nat.div_add_mod] at h

/-- Settles O10: byte j is element j mod 8 of lane j / 8, whose bit is colour bit 23 − j. -/
theorem encodePixelClosedForm : Obligations.EncodePixelClosedForm :=
  fun c _ hj => encodePixel_getElem? c hj

/-- Settles O11: a lane is its own channel's encoding, so no other channel is read. -/
theorem lanesAreIndependent : Obligations.LanesAreIndependent := by
  intro c d k i hi
  refine ⟨encodePixel_lane_pulse c k hi, fun hk => ?_⟩
  rw [encodePixel_lane c k hi, encodePixel_lane d k hi, hk]

/-! ## The encoding of a list of colours -/

theorem encodeColors_cons (c : Color) (cs : List Color) (n : Nat) :
    encodeColors (c :: cs) (n + 1) = encodePixel c ++ encodeColors cs n := rfl

/-- Byte 24p + j of an encoding is byte j of colour p's (R77). -/
theorem encodeColors_getElem? {cs : List Color} {n p j : Nat} (hp : p < cs.length) (hn : p < n) (hj : j < 24) :
    (encodeColors cs n)[24 * p + j]? = some (pulse (cs[p].getLsbD (23 - j))) := by
  induction cs generalizing n p with
  | nil => cases hp
  | cons c cs ih =>
    obtain ⟨n, rfl⟩ : ∃ m, n = m + 1 := ⟨n - 1, by omega⟩
    rw [encodeColors_cons]
    cases p with
    | zero =>
      rw [Nat.mul_zero, Nat.zero_add, List.getElem?_append_left (by rwa [encodePixel_length])]
      exact encodePixel_getElem? c hj
    | succ p =>
      have hoff : 24 * (p + 1) + j - 24 = 24 * p + j := by omega
      rw [List.getElem?_append_right (by rw [encodePixel_length]; omega), encodePixel_length, hoff]
      exact ih (Nat.lt_of_succ_lt_succ hp) (Nat.lt_of_succ_lt_succ hn)

/-- Settles O12: pixels are 24 bytes each in strip order, and a pixel's bytes have the closed form. -/
theorem encodePlacesEveryBit : Obligations.EncodePlacesEveryBit := by
  intro cs n hn
  refine ⟨by rw [encodeColors_length, Nat.min_eq_left hn], fun p j hp hpn hj => ?_⟩
  exact encodeColors_getElem? hp hpn hj

/-! ## FG_ENCODE and the Pulse Buffer -/

section

variable {s t u : State} {cs : List Color} {count : Word}

/-- Bytes written from offset 0 are read back in order, and every offset past them reads as before. -/
theorem memWriteAll_bufByte {vs : List Byte} (hw : Memory.wf s.buf) (h : memWriteAll s 0 vs = .ok t) (i : Nat) :
    t.bufByte i = vs[i]?.getD (s.bufByte i) := by
  obtain ⟨-, -, -, hread⟩ := memWriteAll_ok hw h
  rw [State.bufByte, hread i]
  by_cases hi : i < vs.length
  · simp [hi]
  · simp [hi, State.bufByte]

/-- An enabled FG_ENCODE with colours enough for its count completes with what its writes answer (R78). -/
theorem execFgEncode_completes (hl : s.live) (hp : s.phase = .encode) (hc : s.cur = some ⟨some cs, count⟩)
    (hlen : (sint32 count).toNat ≤ cs.length)
    (hw : memWriteAll s 0 (encodeColors cs (sint32 count).toNat) = .ok u) :
    execFgEncode s = .next { u with phase := .gapwait } := by
  rw [execFgEncode, guarded_enabled hl hp, hc]
  dsimp only
  rw [if_neg (Nat.not_lt.2 hlen), hw]

/-- An enabled FG_ENCODE that raises no fault has completed: it found its colours and its effect on the buffer is R77's
`apply`, with the operands kept and the buffer in canonical form. -/
theorem execFgEncode_wrote (hw : Memory.wf s.buf) (hp : s.phase = .encode) (h : execFgEncode s = .next t)
    (hf : t.fault = none) :
    ∃ cs count, s.cur = some ⟨some cs, count⟩ ∧ (sint32 count).toNat ≤ cs.length ∧ t.cur = s.cur ∧ Memory.wf t.buf ∧
      ∀ i, t.bufByte i = (encodeColors cs (sint32 count).toNat)[i]?.getD (s.bufByte i) := by
  have he := guarded_next_of_guard hp h
  split at he
  · next cs count hc =>
    split at he
    · cases he
    · next hlen =>
      split at he
      · cases he
        cases hf
      · next u hu =>
        cases he
        obtain ⟨hframe, hwf, -, -⟩ := memWriteAll_ok hw hu
        have hcur : u.cur = s.cur := by rw [hframe, State.withBuf_cur]
        have hbytes : ∀ i, u.bufByte i = (encodeColors cs (sint32 count).toNat)[i]?.getD (s.bufByte i) :=
          memWriteAll_bufByte hw hu
        exact ⟨cs, count, hc, Nat.not_lt.1 hlen, hcur, hwf, hbytes⟩
  · cases he

/-- FG_ENCODE changes no byte of a buffer that holds the encoding already. -/
theorem execFgEncode_bufByte_of_encoded (hw : Memory.wf s.buf) (hc : s.cur = some ⟨some cs, count⟩)
    (henc : ∀ i, (encodeColors cs (sint32 count).toNat)[i]?.getD (s.bufByte i) = s.bufByte i)
    (h : execFgEncode s = .next t) (i : Nat) : t.bufByte i = s.bufByte i := by
  obtain ⟨-, ⟨cs', count', -, hc', -, ⟨f, -, rfl⟩ | ⟨u, hu, rfl⟩⟩ | rfl⟩ := execFgEncode_next h
  · rfl
  · cases hc.symm.trans hc'
    exact (memWriteAll_bufByte hw hu i).trans (henc i)
  · rfl

/-- Two completed encodings of the same operands leave the same first bytes, whatever the states are (R82). -/
theorem execFgEncode_bytes_eq {v : State} {c : Operands} {i : Nat} (hs : Memory.wf s.buf) (hu : Memory.wf u.buf)
    (hsp : s.phase = .encode) (hup : u.phase = .encode) (hsc : s.cur = some c) (huc : u.cur = some c)
    (ht : execFgEncode s = .next t) (hv : execFgEncode u = .next v) (htf : t.fault = none) (hvf : v.fault = none)
    (hi : (i : Int) < 24 * sint32 c.count) : t.bufByte i = v.bufByte i := by
  obtain ⟨cs, count, hcs, hlen, -, -, hbt⟩ := execFgEncode_wrote hs hsp ht htf
  obtain ⟨cs', count', hcu, -, -, -, hbv⟩ := execFgEncode_wrote hu hup hv hvf
  cases hsc.symm.trans hcs
  cases huc.symm.trans hcu
  have hib : i < (encodeColors cs (sint32 count).toNat).length := by
    rw [encodeColors_length, Nat.min_eq_left hlen]
    dsimp only at hi
    omega
  rw [hbt, hbv, List.getElem?_eq_getElem hib, Option.getD_some, Option.getD_some]

/-- FG_ENCODE run again on its own result, where its operands still stand, changes no byte (R48). -/
theorem execFgEncode_again {w : State} (hs : Memory.wf s.buf) (hp : s.phase = .encode) (ht : execFgEncode s = .next t)
    (htf : t.fault = none) (hw : execFgEncode { t with phase := .encode } = .next w) (i : Nat) :
    w.bufByte i = t.bufByte i := by
  obtain ⟨cs, count, hc, -, hcur, hwf, hbytes⟩ := execFgEncode_wrote hs hp ht htf
  have henc : ∀ i, (encodeColors cs (sint32 count).toNat)[i]?.getD (t.bufByte i) = t.bufByte i := fun i => by
    rw [hbytes i]
    cases (encodeColors cs (sint32 count).toNat)[i]? <;> rfl
  exact execFgEncode_bufByte_of_encoded (s := { t with phase := .encode }) hwf (hcur.trans hc) henc hw i

end

/-- Settles O20: the 24n bytes of the encoding lie within BUF_LEN, so every write is answered, and they are read back. -/
theorem fgEncodeFillsTheBuffer : Obligations.FgEncodeFillsTheBuffer := by
  intro s cs count hl hp hc hlen _ hmax hwf
  have hn : (sint32 count).toNat = cs.length := by omega
  have hbytes : (encodeColors cs cs.length).length = 24 * cs.length := by rw [encodeColors_length, Nat.min_self]
  obtain ⟨u, hu⟩ : ∃ u, memWriteAll s 0 (encodeColors cs cs.length) = .ok u :=
    memWriteAll_isOk (by rw [hbytes, State.bufLen_eq]; omega)
  have hread : ∀ i, u.bufByte i = (encodeColors cs cs.length)[i]?.getD (s.bufByte i) := memWriteAll_bufByte hwf hu
  obtain ⟨hframe, hwf', -, -⟩ := memWriteAll_ok hwf hu
  refine ⟨{ u with phase := .gapwait }, execFgEncode_completes hl hp hc hn.le (by rw [hn, hu]), ?_, hwf',
    fun p j hpl hj => ?_, fun a ha => ?_⟩
  · exact congrArg (fun v : State => { v with phase := .gapwait }) hframe
  · refine (hread (24 * p + j)).trans ?_
    rw [encodeColors_getElem? hpl hpl hj]
    rfl
  · refine (hread a).trans ?_
    rw [List.getElem?_eq_none (hbytes.trans_le ha)]
    rfl

/-- Settles O50: the bytes written are the encoding's, which the operands fix, and FG_ENCODE leaves its operands. -/
theorem encodingIsPure : Obligations.EncodingIsPure := by
  intro s t u v hs hu _ _ hsp hup hcur ht hv htl hvl
  obtain ⟨htf, -⟩ := htl
  obtain ⟨hvf, -⟩ := hvl
  exact ⟨fun c hc i hi => execFgEncode_bytes_eq hs hu hsp hup hc (hcur ▸ hc) ht hv htf hvf hi,
    fun w hw i => execFgEncode_again hs hsp ht htf hw i⟩

end Sys2Proof.Machine
end

section
/-! The host commands and the steps that open and close a call (41_host_commands.md): INIT (R83), UPDATE (R84), FG_CHECK
(R85) and FG_RETURN (R86), each enabled. -/

namespace Sys2Proof.Machine

/-! ## The commands -/

/-- Settles O15: before READY the drawn value is the timer's and the flags and the line are written; after it INIT refuses. -/
theorem initBringsTheBlockUp : Obligations.InitBringsTheBlockUp := by
  intro s hl hp
  have hexec : exec .init s = _ := guarded_enabled hl hp
  refine ⟨fun hr => ⟨Config.freeTimer s.draws, ?_⟩, fun hr => ?_⟩
  · rw [hexec, if_neg (Bool.eq_false_iff.1 hr)]
    rfl
  · rw [hexec, if_pos hr]
    rfl

/-- Settles O16: READY decides between capturing the operands and raising NOT_READY. -/
theorem updateOpensTheCall : Obligations.UpdateOpensTheCall := by
  intro s colors count hl hp
  have hexec : exec (.update colors count) s = _ := guarded_enabled hl hp
  refine ⟨fun hr => ?_, fun hr => ?_⟩
  · rw [hexec, if_pos hr]
  · rw [hexec, if_neg (Bool.eq_false_iff.1 hr)]
    rfl

/-! ## The argument check and the return -/

/-- FG_CHECK's three outcomes where it is enabled and has its operands, in the order of its tests (R85). -/
theorem execFgCheck_enabled {s : State} {c : Operands} (hl : s.live) (hp : s.phase = .check) (hc : s.cur = some c) :
    execFgCheck s =
      if c.invalid then .next { s with status := some .invalidArgument, phase := .return }
      else if c.tooMany s then .next { s with status := some .capacityExceeded, phase := .return }
      else .next { s with phase := .drain } := by
  rw [execFgCheck, guarded_enabled hl hp, hc]

/-- Operands that the invalid-argument test lets pass (R85). -/
theorem Operands.not_invalid {c : Operands} (hcs : c.colors ≠ none) (hn : 0 < sint32 c.count) : ¬ c.invalid = true := by
  rw [Operands.invalid_iff]
  exact not_or.2 ⟨hcs, Int.not_le.2 hn⟩

/-- Settles O17: the invalid-argument test is read first, then the capacity test. -/
theorem fgCheckSortsTheArguments : Obligations.FgCheckSortsTheArguments := by
  intro s c hl hp hc
  have hexec : exec .fgCheck s = _ := execFgCheck_enabled hl hp hc
  refine ⟨fun hinvalid => ?_, fun hcs hn hmax => ?_, fun hcs hn hmax => ?_⟩
  · rw [hexec, if_pos ((Operands.invalid_iff c).2 hinvalid)]
  · rw [hexec, if_neg (Operands.not_invalid hcs hn), if_pos ((Operands.tooMany_iff c s).2 hmax)]
  · rw [hexec, if_neg (Operands.not_invalid hcs hn), if_neg (mt (Operands.tooMany_iff c s).1 (Int.not_lt.2 hmax))]

/-- Settles O24: an enabled FG_RETURN reads the status and not the data byte. -/
theorem fgReturnClosesTheCall : Obligations.FgReturnClosesTheCall := by
  intro s st data hl hp hst
  have hexec : exec (.fgReturn data) s = _ := guarded_enabled hl hp
  rw [hexec, hst]

end Sys2Proof.Machine
end

section
/-! The transmit controller (42_transmit_controller.md): each step where it is enabled or held (R89 to R92, R94), the table
of its phases (R93), and the end of the reset gap. -/

namespace Sys2Proof.Machine

/-! ## Each step -/

/-- Settles O18: TX_DONE is the rest of FG_DRAIN's guard. -/
theorem fgDrainWaitsForCompletion : Obligations.FgDrainWaitsForCompletion := by
  intro s hl hp
  refine ⟨fun hx => guarded_enabled hl ⟨hp, hx⟩, fun hx => guarded_held hl ?_⟩
  rintro ⟨-, hdone⟩
  exact Bool.false_ne_true (hx.symm.trans hdone)

/-- Settles O19: driving the line writes it and emits Disable without reading what it was. -/
theorem fgPrepareStartsTheGap : Obligations.FgPrepareStartsTheGap :=
  fun _ hl hp => guarded_enabled hl hp

/-- Settles O22: the rest of FG_GAPWAIT's guard compares the counter's unsigned value with T_RESET_US, which is 70. -/
theorem fgGapwaitComparesUnsigned : Obligations.FgGapwaitComparesUnsigned := by
  intro s hl hp
  refine ⟨fun ht => guarded_enabled hl ⟨hp, ht⟩, fun ht => guarded_held hl ?_⟩
  rintro ⟨-, helapsed⟩
  exact absurd ht (Nat.not_lt.2 helapsed)

/-- FG_ARM's effect where it is enabled and its operands have a count that is not negative (R92). -/
theorem execFgArm_enabled {s : State} {c : Operands} (hl : s.live) (hp : s.phase = .arm) (hc : s.cur = some c)
    (hn : 0 ≤ c.n) :
    execFgArm s = .next (State.armFlags <| State.drive (l := .enabled)
      { s with
        dmaSrc := s.params.bufBase, dmaLen := transferLength c.n.toNat, dmaIdx := 0, status := some .ok
        phase := .return }) := by
  rw [execFgArm, guarded_enabled hl hp, hc]
  exact if_neg (Int.not_lt.2 hn)

/-- Where the count is not negative, the length of its transfer is `24 × n` as an integer too (D16). -/
theorem transferLength_toNat {n : Int} (hn : 0 ≤ n) : (transferLength n.toNat : Int) = 24 * n := by
  rw [transferLength, Config.bytesPerPixel]
  omega

/-- Settles O23: the transfer's length is computed from the count, which is positive. -/
theorem fgArmStartsTheTransfer : Obligations.FgArmStartsTheTransfer := by
  intro s c hl hp hc hmin _
  have hn : 0 ≤ c.n := zero_le_one.trans hmin
  exact ⟨transferLength c.n.toNat, transferLength_toNat hn, execFgArm_enabled hl hp hc hn⟩

/-! ## The phases -/

/-- Settles O54: each operation that writes PHASE does so only where its guard holds, which names the row's first phase, and
every other outcome of it leaves PHASE as it was. -/
theorem phaseFollowsTheTable : Obligations.PhaseFollowsTheTable := by
  intro i s t h hne
  cases i with
  | update colors count =>
    obtain ⟨-, ⟨hp, hr, rfl⟩ | ⟨-, -, rfl⟩ | rfl⟩ := execUpdate_next h
    · simp [hp, hr]
    · exact absurd rfl hne
    · exact absurd rfl hne
  | fgCheck =>
    obtain ⟨-, ⟨c, hp, -, hout⟩ | rfl⟩ := execFgCheck_next h
    · obtain ⟨-, rfl⟩ | ⟨-, -, rfl⟩ | ⟨-, -, rfl⟩ := hout <;> simp [hp]
    · exact absurd rfl hne
  | fgDrain =>
    obtain ⟨-, ⟨hp, hx, rfl⟩ | rfl⟩ := execFgDrain_next h
    · simp [hp, hx]
    · exact absurd rfl hne
  | fgPrepare =>
    obtain ⟨-, ⟨hp, rfl⟩ | rfl⟩ := execFgPrepare_next h
    · simp [hp]
    · exact absurd rfl hne
  | fgEncode =>
    obtain ⟨-, ⟨cs, count, hp, -, -, ⟨f, -, rfl⟩ | ⟨u, -, rfl⟩⟩ | rfl⟩ := execFgEncode_next h
    · exact absurd rfl hne
    · simp [hp]
    · exact absurd rfl hne
  | fgGapwait =>
    obtain ⟨-, ⟨hp, helapsed, rfl⟩ | rfl⟩ := execFgGapwait_next h
    · have ht : 70 ≤ s.timer.toNat := helapsed
      simp [hp, ht]
    · exact absurd rfl hne
  | fgArm =>
    obtain ⟨-, ⟨c, hp, -, -, rfl⟩ | rfl⟩ := execFgArm_next h
    · simp [hp]
    · exact absurd rfl hne
  | fgReturn data =>
    obtain ⟨-, ⟨st, hp, -, rfl⟩ | rfl⟩ := execFgReturn_next (data := data) h
    · simp [hp]
    · exact absurd rfl hne
  | init | dmaSend | dmaComplete | irqCompletion | timerTick =>
    exact absurd (congrArg State.phase (exec_eq_writtenBy h)) hne

/-! ## The end of the reset gap -/

/-- The ticks that the reset gap still lacks are counted without a wrap: there are none where the counter is past it. -/
theorem toNat_add_remainingTicks (timer : Word) :
    (timer + BitVec.ofNat 32 (70 - timer.toNat)).toNat = timer.toNat + (70 - timer.toNat) := by
  have hlt : timer.toNat < 2 ^ 32 := timer.isLt
  rw [BitVec.toNat_add, BitVec.toNat_ofNat]
  omega

theorem runTurns_singleton (turn : Turn) (s : State) : runTurns [turn] s = stepTurn turn s := by
  rw [runTurns]
  cases stepTurn turn s <;> rfl

/-- FG_GAPWAIT's turn where the gap is over (R91). -/
theorem stepTurn_fgGapwait {s : State} {prog : List HostCmd} (hl : s.live) (hprog : resolveInput s.hostInput = .ok prog)
    (hp : s.phase = .gapwait) (ht : 70 ≤ s.timer.toNat) :
    stepTurn (.internal .fgGapwait) s = .next { s with phase := .arm } :=
  (stepTurn_internal .fgGapwait hprog).trans ((fgGapwaitComparesUnsigned s hl hp).1 ht)

/-- In the gap wait, once the ticks have brought the counter to 70, FG_GAPWAIT moves the controller to ARM (R91, R94). -/
theorem runTurns_ticks_fgGapwait {s : State} {prog : List HostCmd} {k : Nat} (hl : s.live) (hr : s.ready = true)
    (hprog : resolveInput s.hostInput = .ok prog) (hp : s.phase = .gapwait)
    (ht : 70 ≤ (s.timer + BitVec.ofNat 32 k).toNat) :
    ∃ tr, runTurns (List.replicate k (.internal .timerTick) ++ [.internal .fgGapwait]) s =
      .next { s with timer := s.timer + BitVec.ofNat 32 k, trace := tr, phase := .arm } := by
  obtain ⟨tr, hticks⟩ := runTurns_ticks k s hl hr hprog
  refine ⟨tr, ?_⟩
  rw [runTurns_append hticks, runTurns_singleton]
  exact stepTurn_fgGapwait hl hprog hp ht

/-- Settles O57: the ticks that TIMER lacks of 70 are counted exactly and bring it there. -/
theorem gapWaitEndsWithinSeventyTicks : Obligations.GapWaitEndsWithinSeventyTicks := by
  intro s prog hl hr hprog hp
  have htimer := toNat_add_remainingTicks s.timer
  obtain ⟨tr, hrun⟩ := runTurns_ticks_fgGapwait (k := 70 - s.timer.toNat) hl hr hprog hp (by omega)
  exact ⟨_, _, Nat.sub_le 70 _, hrun, rfl, htimer⟩

end Sys2Proof.Machine
end

section
/-! The DMA engine and the microsecond timer (43_dma_serial_timer.md): DMA_SEND (R95), DMA_COMPLETE (R96) and TIMER_TICK
(R99), each enabled, and who writes TIMER (R100). -/

namespace Sys2Proof.Machine

/-! ## TIMER -/

/-- Settles O53: INIT is a case of its own, FG_PREPARE and TIMER_TICK write TIMER only where they are enabled, and no other
operation writes it. -/
theorem timerOnlyCounts : Obligations.TimerOnlyCounts := by
  intro i s t h hne
  cases i with
  | init => exact .inl rfl
  | fgPrepare =>
    obtain ⟨-, ⟨-, rfl⟩ | rfl⟩ := execFgPrepare_next h
    · exact .inr (.inl ⟨rfl, rfl⟩)
    · exact absurd rfl hne
  | timerTick =>
    obtain ⟨-, ⟨-, rfl⟩ | rfl⟩ := execTimerTick_next h
    · exact .inr (.inr ⟨rfl, BitVec.toNat_add s.timer 1⟩)
    · exact absurd rfl hne
  | update | fgCheck | fgDrain | fgEncode | fgGapwait | fgArm | fgReturn | dmaSend | dmaComplete | irqCompletion =>
    exact absurd (congrArg State.timer (exec_eq_writtenBy h)) hne

/-- Settles O28: TIMER_TICK's guard is READY alone, and the wrapping sum is the one the rule writes. -/
theorem timerTickCounts : Obligations.TimerTickCounts := by
  intro s hl hr
  have hsum : BitVec.ofNat 32 ((s.timer.toNat + 1) % 2 ^ 32) = s.timer + 1 := by
    apply BitVec.eq_of_toNat_eq
    rw [BitVec.toNat_ofNat, Nat.mod_mod, BitVec.toNat_add]
    rfl
  rw [hsum]
  exact guarded_enabled hl hr

/-! ## The DMA engine -/

/-- Settles O25: the line is tested first, then the offset's bound by the buffer's read. -/
theorem dmaSendMovesOneByte : Obligations.DmaSendMovesOneByte := by
  intro s data hl ha hi
  have hexec : exec (.dmaSend data) s = _ := guarded_enabled hl ⟨ha, hi⟩
  rw [hexec, ← State.bufLen_eq]
  have henabled : s.line = .enabled → s.line ≠ .disabled := fun h => by simp [h]
  refine ⟨fun hline hlt => ?_, fun hline => if_pos hline, fun hline hge => ?_⟩
  · rw [if_neg (henabled hline), memRead_ok hlt]
    rfl
  · rw [if_neg (henabled hline), memRead_error hge]
    rfl

/-- Settles O26: DMA_COMPLETE's effect is the two flags of R96. -/
theorem dmaCompleteSignals : Obligations.DmaCompleteSignals :=
  fun _ hl ha hi => guarded_enabled hl ⟨ha, hi⟩

end Sys2Proof.Machine
end

section
/-! The invariants (70_reset_and_hazards.md) along a run: they hold at its start, every operation keeps them, so they hold
in every reachable state. -/

namespace Sys2Proof.Machine

variable {s t : State}

/-! ## The host's commands are well-formed -/

theorem checkTerms_wellFormed {cs prog : List HostCmd} (h : checkTerms cs = .ok prog) {c : HostCmd} (hc : c ∈ prog) :
    c.wellFormed = true := by
  unfold checkTerms at h
  split at h
  · next hall =>
    cases h
    exact List.all_eq_true.1 hall c hc
  · cases h

/-- A program that resolves has only well-formed commands, in whichever form it came (R64). -/
theorem resolveInput_wellFormed {input : HostInput} {prog : List HostCmd} (h : resolveInput input = .ok prog) {c : HostCmd}
    (hc : c ∈ prog) : c.wellFormed = true := by
  cases input with
  | words ws => exact decodedTermsAreWellFormed ws prog h c hc
  | terms cs => exact checkTerms_wellFormed h hc
  | text src =>
    change assemble src = .ok prog at h
    unfold assemble at h
    split at h
    · cases h
    · exact checkTerms_wellFormed h hc

/-- What a turn fetches is well-formed, and it is a command only where the host still has one. -/
theorem fetch_some {prog : List HostCmd} {turn : Turn} {i : Instr} (hp : resolveInput s.hostInput = .ok prog)
    (hf : fetch prog s turn = some i) : i.wellFormed = true ∧ (i.agent = .host → s.hpc < prog.length) := by
  cases turn with
  | host =>
    obtain ⟨c, hc, rfl⟩ := Option.map_eq_some_iff.1 hf
    obtain ⟨hlt, -⟩ := List.getElem?_eq_some_iff.1 hc
    exact ⟨(wellFormed_command c).trans (resolveInput_wellFormed hp (List.mem_of_getElem? hc)), fun _ => hlt⟩
  | internal e =>
    obtain rfl := Option.some.inj hf
    cases e <;> exact ⟨rfl, nofun⟩

/-! ## What the invariants say of a phase and of a transfer -/

/-- A call is in progress only after INIT (R117). -/
theorem State.Inv.ready_of_inCall (hi : s.Inv) (hp : s.phase ≠ .nocall) : s.ready = true := by
  by_contra h
  obtain ⟨hnocall, -⟩ := hi.beforeInit (Bool.eq_false_iff.2 h)
  exact hp hnocall

/-- A transfer is in flight only after INIT (R117). -/
theorem State.Inv.ready_of_dmaActive (hi : s.Inv) (ha : s.dmaActive = true) : s.ready = true := by
  by_contra h
  obtain ⟨-, hidle, -⟩ := hi.beforeInit (Bool.eq_false_iff.2 h)
  exact Bool.false_ne_true (hidle.symm.trans ha)

/-- While a transfer is in flight TX_DONE is clear (R122). -/
theorem State.Inv.txDone_of_dmaActive (hi : s.Inv) (ha : s.dmaActive = true) : s.txDone = false := by
  refine Bool.eq_false_iff.2 fun hx => ?_
  obtain ⟨hidle, -⟩ := (hi.txDone (hi.ready_of_dmaActive ha)).1 hx
  exact Bool.false_ne_true (hidle.symm.trans ha)

/-- From FG_PREPARE to FG_ARM nothing is in flight (R123). -/
theorem State.Inv.idle_of_beforeArm (hi : s.Inv) (hp : s.phase.beforeArm) :
    s.txDone = true ∧ s.dmaActive = false ∧ s.xferDone = false := by
  have hcall : s.phase ≠ .nocall := by rcases hp with h | h | h | h <;> simp [h]
  exact hi.idleBeforeArm (hi.ready_of_inCall hcall) hp

/-- Operands that pass FG_CHECK's two tests are admitted ones (R85). -/
theorem Operands.admitted_of_checked {c : Operands} (hw : operandsWellFormed c.colors c.count = true)
    (hinvalid : c.invalid = false) (hmany : c.tooMany s = false) : c.admitted s := by
  obtain ⟨hcs, hn⟩ := not_or.1 (mt (Operands.invalid_iff c).2 (Bool.eq_false_iff.1 hinvalid))
  have hmax := mt (Operands.tooMany_iff c s).2 (Bool.eq_false_iff.1 hmany)
  obtain ⟨cs, hcs⟩ := Option.ne_none_iff_exists'.1 hcs
  rw [hcs, operandsWellFormed_some_iff] at hw
  exact ⟨cs, hcs, show (cs.length : Int) = sint32 c.count by omega, by omega, by omega⟩

/-- Bytes read back one by one are read back as a list. -/
theorem State.bufBytes_eq {bytes : List Byte} (h : ∀ i < bytes.length, some (s.bufByte i) = bytes[i]?) :
    s.bufBytes bytes.length = bytes := by
  refine List.ext_getElem (by simp [State.bufBytes]) fun i _ hi => ?_
  have hbyte := h i hi
  rw [List.getElem?_eq_getElem hi] at hbyte
  simpa [State.bufBytes] using hbyte

/-! ## The start of a run, and the updates that the operations share -/

/-- At the start of a run nothing is in progress. -/
theorem State.Inv.of_isStart (h : s.isStart) : s.Inv := by
  obtain ⟨hready, hphase, hcur, hstatus, hline, hactive, hlen, hidx, hxfer, hirq, -, -, -, -, hhpc, hparams, hwf,
    hrange⟩ := h
  exact {
    params := hparams
    bufWf := hwf
    bufRange := hrange
    beforeInit := fun _ => ⟨hphase, hactive, hxfer, hirq, hline⟩
    registered := by simp [hready]
    txDone := by simp [hready]
    exclusive := by simp [hactive]
    idleBeforeArm := by simp [hready]
    lineEnabled := by simp [hactive]
    dmaBounds := by simp [hlen, hidx]
    inFlight := by simp [hactive]
    allSent := by simp [hxfer]
    curInCall := by simp [hcur, hphase]
    statusAtReturn := by simp [hstatus, hphase]
    curWellFormed := by simp [hcur]
    curAdmitted := by simp [hcur]
    encoded := by simp [hphase]
    hpcBound := by simp [hhpc] }

/-- The invariants do not speak of the schedule or the count of draws. -/
theorem State.Inv.afterTurn (hi : s.Inv) : s.afterTurn.Inv := by
  rw [State.afterTurn_eq]
  split <;> exact { hi with }

theorem State.Inv.raise (hi : s.Inv) (f : Fault) : (s.raise f).Inv := { hi with }

theorem State.Inv.refuse (hi : s.Inv) (r : Refusal) : (s.refuse r).Inv := { hi with }

/-- Where no transfer is in flight the line may be disabled (R124). -/
theorem State.Inv.drive_disabled (hi : s.Inv) (ha : s.dmaActive = false) : (s.drive .disabled).Inv :=
  { hi with
    beforeInit := fun hr => by simp [hi.beforeInit hr]
    lineEnabled := by simp [ha] }

/-- A move from one phase of a call to another, short of its return: what is left to show is what the new phase asks for. -/
theorem State.Inv.move (hi : s.Inv) {p : Phase} (hcall : s.phase ≠ .nocall) (hbefore : s.phase ≠ .return)
    (hp : p = .drain ∨ p.beforeArm) (hidle : p.beforeArm → s.txDone = true ∧ s.dmaActive = false ∧ s.xferDone = false)
    (hadmitted : ∀ c, s.cur = some c → c.admitted s)
    (hencoded : (p = .gapwait ∨ p = .arm) → ∀ cs count, s.cur = some ⟨some cs, count⟩ → s.holdsFrame cs) :
    ({ s with phase := p } : State).Inv := by
  have hpcall : p ≠ .nocall ∧ p ≠ .return := by rcases hp with h | h | h | h | h <;> simp [h]
  exact { hi with
    beforeInit := fun hr => by simp [hi.ready_of_inCall hcall] at hr
    idleBeforeArm := fun _ => hidle
    curInCall := by simp [hpcall, hi.curInCall, hcall]
    statusAtReturn := by simp [hpcall, hi.statusAtReturn, hbefore]
    curAdmitted := fun c hc _ => hadmitted c hc
    encoded := hencoded }

/-! ## Each operation -/

theorem execInit_keeps_inv (hi : s.Inv) (hhpc : ∀ prog, resolveInput s.hostInput = .ok prog → s.hpc < prog.length)
    (h : execInit s = .next t) : t.Inv := by
  obtain ⟨-, ⟨-, -, rfl⟩ | ⟨hp, hr, rfl⟩ | rfl⟩ := execInit_next h
  · exact hi.refuse .reinit
  · exact { hi with
      beforeInit := by simp
      registered := by simp
      txDone := by simp
      exclusive := by simp
      idleBeforeArm := by simp
      lineEnabled := by simp
      dmaBounds := by simp
      inFlight := by simp
      allSent := by simp
      hpcBound := hhpc }
  · exact hi

theorem execUpdate_keeps_inv (hi : s.Inv) {colors : Option (List Color)} {count : Word}
    (hw : operandsWellFormed colors count = true)
    (hhpc : ∀ prog, resolveInput s.hostInput = .ok prog → s.hpc < prog.length)
    (h : execUpdate colors count s = .next t) : t.Inv := by
  obtain ⟨-, ⟨hp, hr, rfl⟩ | ⟨-, -, rfl⟩ | rfl⟩ := execUpdate_next h
  · have hstatus : s.status = none := hi.statusAtReturn.2 (by simp [hp])
    exact { hi with
      beforeInit := by simp [hr]
      idleBeforeArm := by simp
      curInCall := by simp
      statusAtReturn := by simp [hstatus]
      curWellFormed := by simp [hw]
      curAdmitted := by simp [hstatus]
      encoded := by simp
      hpcBound := hhpc }
  · exact hi.raise .notReady
  · exact hi

/-- The rejecting outcome of FG_CHECK: a status other than OK, about to return. -/
theorem State.Inv.reject (hi : s.Inv) (hp : s.phase = .check) {st : Status} (hst : st ≠ .ok) :
    ({ s with status := some st, phase := .return } : State).Inv := by
  have hcall : s.phase ≠ .nocall := by simp [hp]
  exact { hi with
    beforeInit := fun hr => by simp [hi.ready_of_inCall hcall] at hr
    idleBeforeArm := by simp
    curInCall := by simp [hi.curInCall, hcall]
    statusAtReturn := by simp
    curAdmitted := by simp [hst]
    encoded := by simp }

theorem execFgCheck_keeps_inv (hi : s.Inv) (h : execFgCheck s = .next t) : t.Inv := by
  obtain ⟨-, ⟨c, hp, hc, ⟨-, rfl⟩ | ⟨-, -, rfl⟩ | ⟨hinvalid, hmany, rfl⟩⟩ | rfl⟩ := execFgCheck_next h
  · exact hi.reject hp nofun
  · exact hi.reject hp nofun
  · refine hi.move (by simp [hp]) (by simp [hp]) (.inl rfl) (by simp) (fun c' hc' => ?_) (by simp)
    cases hc.symm.trans hc'
    exact Operands.admitted_of_checked (hi.curWellFormed c hc) hinvalid hmany
  · exact hi

theorem execFgDrain_keeps_inv (hi : s.Inv) (h : execFgDrain s = .next t) : t.Inv := by
  obtain ⟨-, ⟨hp, hx, rfl⟩ | rfl⟩ := execFgDrain_next h
  · have hcall : s.phase ≠ .nocall := by simp [hp]
    have hidle := (hi.txDone (hi.ready_of_inCall hcall)).1 hx
    exact hi.move hcall (by simp [hp]) (.inr (.inl rfl)) (fun _ => ⟨hx, hidle⟩)
      (fun c hc => hi.curAdmitted c hc (.inl hp)) (by simp)
  · exact hi

theorem execFgPrepare_keeps_inv (hi : s.Inv) (h : execFgPrepare s = .next t) : t.Inv := by
  obtain ⟨-, ⟨hp, rfl⟩ | rfl⟩ := execFgPrepare_next h
  · have hbefore : s.phase.beforeArm := .inl hp
    obtain ⟨hx, ha, hxfer⟩ := hi.idle_of_beforeArm hbefore
    have hmoved : ({ s with phase := .encode } : State).Inv :=
      hi.move (by simp [hp]) (by simp [hp]) (.inr (.inr (.inl rfl))) (fun _ => ⟨hx, ha, hxfer⟩)
        (fun c hc => hi.curAdmitted c hc (.inr (.inl hbefore))) (by simp)
    exact { hmoved.drive_disabled ha with }
  · exact hi

/-- A buffer written where nothing is in flight and no frame waits for FG_ARM. -/
theorem State.Inv.withBuf (hi : s.Inv) {m : Memory} (hp : s.phase = .encode) (hwf : Memory.wf m)
    (hrange : ∀ c ∈ m, c.1 < s.bufLen) : (s.withBuf m).Inv := by
  obtain ⟨-, ha, -⟩ := hi.idle_of_beforeArm (.inr (.inl hp))
  exact { hi with
    bufWf := hwf
    bufRange := hrange
    inFlight := by simp [ha]
    encoded := by simp [hp] }

/-- After FG_ENCODE's writes the buffer begins with the encoding (R77). -/
theorem holdsFrame_of_memWriteAll {cs : List Color} (hwf : Memory.wf s.buf)
    (h : memWriteAll s 0 (encodeColors cs cs.length) = .ok t) : t.holdsFrame cs := by
  have hlen : (encodeColors cs cs.length).length = transferLength cs.length := by
    rw [encodeColors_length, Nat.min_self]
    rfl
  rw [State.holdsFrame, ← hlen]
  refine State.bufBytes_eq fun i hlt => ?_
  rw [memWriteAll_bufByte hwf h i, List.getElem?_eq_getElem hlt, Option.getD_some]

/-- In a run FG_ENCODE's bytes are within the buffer: its operands are admitted ones. -/
theorem State.Inv.encodeColors_fits (hi : s.Inv) (hp : s.phase = .encode) {cs : List Color} {count : Word}
    (hc : s.cur = some ⟨some cs, count⟩) :
    (sint32 count).toNat = cs.length ∧ (encodeColors cs (sint32 count).toNat).length ≤ s.bufLen := by
  obtain ⟨cs', count', hc', hlen, -, hmax⟩ := hi.admitted_of_beforeArm (.inr (.inl hp))
  cases hc.symm.trans hc'
  refine ⟨by omega, ?_⟩
  rw [encodeColors_length, State.bufLen_eq]
  omega

theorem execFgEncode_keeps_inv (hi : s.Inv) (h : execFgEncode s = .next t) : t.Inv := by
  obtain ⟨-, ⟨cs, count, hp, hc, -, ⟨f, -, rfl⟩ | ⟨u, hu, rfl⟩⟩ | rfl⟩ := execFgEncode_next h
  · exact hi.raise f
  · obtain ⟨hframe, hwf, hrange, -⟩ := memWriteAll_ok hi.bufWf hu
    have hbefore : s.phase.beforeArm := .inr (.inl hp)
    have hwritten : u.Inv := by
      rw [hframe]
      exact hi.withBuf hp hwf fun c hc => (hrange c hc).elim (hi.bufRange c) id
    have hup : u.phase = .encode := by rw [hframe, State.withBuf_phase, hp]
    have huc : u.cur = some ⟨some cs, count⟩ := by rw [hframe, State.withBuf_cur, hc]
    refine hwritten.move (by simp [hup]) (by simp [hup]) (.inr (.inr (.inr (.inl rfl))))
      (fun _ => hwritten.idle_of_beforeArm (.inr (.inl hup)))
      (fun c hc => hwritten.curAdmitted c hc (.inr (.inl (.inr (.inl hup))))) (fun _ cs' count' hc' => ?_)
    cases huc.symm.trans hc'
    rw [(hi.encodeColors_fits hp hc).1] at hu
    exact holdsFrame_of_memWriteAll hi.bufWf hu
  · exact hi

theorem execFgGapwait_keeps_inv (hi : s.Inv) (h : execFgGapwait s = .next t) : t.Inv := by
  obtain ⟨-, ⟨hp, -, rfl⟩ | rfl⟩ := execFgGapwait_next h
  · have hbefore : s.phase.beforeArm := .inr (.inr (.inl hp))
    exact hi.move (by simp [hp]) (by simp [hp]) (.inr (.inr (.inr (.inr rfl))))
      (fun _ => hi.idle_of_beforeArm hbefore) (fun c hc => hi.curAdmitted c hc (.inr (.inl hbefore)))
      (fun _ => hi.encoded (.inl hp))
  · exact hi

/-- FG_ARM starts the transfer of the frame that the buffer holds. -/
theorem execFgArm_keeps_inv (hi : s.Inv) (h : execFgArm s = .next t) : t.Inv := by
  obtain ⟨-, ⟨c, hp, hc, -, rfl⟩ | rfl⟩ := execFgArm_next h
  · have hbefore : s.phase.beforeArm := .inr (.inr (.inr hp))
    have hcall : s.phase ≠ .nocall := by simp [hp]
    have hready := hi.ready_of_inCall hcall
    obtain ⟨-, -, hxfer⟩ := hi.idle_of_beforeArm hbefore
    obtain ⟨cs, count, hc', hlen, hmin, hmax⟩ := hi.admitted_of_beforeArm hbefore
    cases hc.symm.trans hc'
    have hn : (Operands.n ⟨some cs, count⟩).toNat = cs.length := by
      rw [Operands.n, ← hlen, Int.toNat_natCast]
    have hadmitted := hi.curAdmitted _ hc (.inr (.inl hbefore))
    rw [hn]
    exact { hi with
      beforeInit := by simp [hready]
      txDone := by simp
      exclusive := by simp [hxfer]
      idleBeforeArm := by simp
      lineEnabled := by simp
      dmaBounds := ⟨Nat.zero_le _, Nat.mul_le_mul_left _ hmax⟩
      inFlight := fun _ => ⟨cs, hmin, hmax, rfl, hi.encoded (.inr hp) cs count hc⟩
      allSent := by simp [hxfer]
      curInCall := by simp [hc]
      statusAtReturn := by simp
      curAdmitted := fun c' hc' _ => Option.some.inj (hc.symm.trans hc') ▸ hadmitted
      encoded := by simp }
  · exact hi

theorem execFgReturn_keeps_inv (hi : s.Inv) {data : Byte} (h : execFgReturn data s = .next t) : t.Inv := by
  obtain ⟨-, ⟨st, hp, -, rfl⟩ | rfl⟩ := execFgReturn_next (data := data) h
  · have hready := hi.ready_of_inCall (by simp [hp])
    exact { hi with
      beforeInit := by simp [hready]
      idleBeforeArm := by simp
      curInCall := by simp
      statusAtReturn := by simp
      curWellFormed := by simp
      curAdmitted := by simp
      encoded := by simp }
  · exact hi

theorem execDmaSend_keeps_inv (hi : s.Inv) {data : Byte} (h : execDmaSend data s = .next t) : t.Inv := by
  obtain ⟨-, ⟨ha, hidx, hout⟩ | rfl⟩ := execDmaSend_next (data := data) h
  · obtain ⟨-, rfl⟩ | ⟨-, -, rfl⟩ | ⟨-, -, rfl⟩ := hout
    · exact hi.raise .lineDisabled
    · exact hi.raise .bufRange
    · exact { hi with
        dmaBounds := ⟨hidx, hi.dmaBounds.2⟩
        allSent := fun hx => absurd ⟨ha, hx⟩ hi.exclusive }
  · exact hi

theorem execDmaComplete_keeps_inv (hi : s.Inv) (h : execDmaComplete s = .next t) : t.Inv := by
  obtain ⟨-, ⟨ha, hidx, rfl⟩ | rfl⟩ := execDmaComplete_next h
  · have hready := hi.ready_of_dmaActive ha
    have htx := hi.txDone_of_dmaActive ha
    exact { hi with
      beforeInit := by simp [hready]
      txDone := by simp [htx]
      exclusive := by simp
      idleBeforeArm := fun hr hp => absurd (hi.idleBeforeArm hr hp).1 (Bool.eq_false_iff.1 htx)
      lineEnabled := by simp
      inFlight := by simp
      allSent := fun _ => hidx }
  · exact hi

theorem execIrqCompletion_keeps_inv (hi : s.Inv) (h : execIrqCompletion s = .next t) : t.Inv := by
  obtain ⟨-, ⟨hx, -, rfl⟩ | rfl⟩ := execIrqCompletion_next h
  · have ha : s.dmaActive = false := Bool.eq_false_iff.2 fun ha => hi.exclusive ⟨ha, hx⟩
    have hacked : s.ackFlags.Inv := { hi with
      beforeInit := fun hr => by simp [hi.beforeInit hr] at hx
      txDone := by simp [ha]
      exclusive := by simp
      idleBeforeArm := by simp [ha]
      allSent := by simp }
    exact hacked.drive_disabled ha
  · exact hi

theorem execTimerTick_keeps_inv (hi : s.Inv) (h : execTimerTick s = .next t) : t.Inv := by
  obtain ⟨-, ⟨-, rfl⟩ | rfl⟩ := execTimerTick_next h
  · exact { hi with }
  · exact hi

/-! ## Runs -/

/-- Every operation keeps the invariants, a command where it is well-formed and the host's next. -/
theorem exec_keeps_inv (hi : s.Inv) {i : Instr} (hw : i.wellFormed = true)
    (hhpc : i.agent = .host → ∀ prog, resolveInput s.hostInput = .ok prog → s.hpc < prog.length)
    (h : exec i s = .next t) : t.Inv := by
  cases i with
  | init => exact execInit_keeps_inv hi (hhpc rfl) h
  | update colors count => exact execUpdate_keeps_inv hi hw (hhpc rfl) h
  | fgCheck => exact execFgCheck_keeps_inv hi h
  | fgDrain => exact execFgDrain_keeps_inv hi h
  | fgPrepare => exact execFgPrepare_keeps_inv hi h
  | fgEncode => exact execFgEncode_keeps_inv hi h
  | fgGapwait => exact execFgGapwait_keeps_inv hi h
  | fgArm => exact execFgArm_keeps_inv hi h
  | fgReturn data => exact execFgReturn_keeps_inv hi (data := data) h
  | dmaSend data => exact execDmaSend_keeps_inv hi (data := data) h
  | dmaComplete => exact execDmaComplete_keeps_inv hi h
  | irqCompletion => exact execIrqCompletion_keeps_inv hi h
  | timerTick => exact execTimerTick_keeps_inv hi h

/-- Every turn keeps the invariants: a turn without an operation holds, and what it fetches is what `exec_keeps_inv` asks
for. -/
theorem stepTurn_keeps_inv (hi : s.Inv) {turn : Turn} (h : stepTurn turn s = .next t) : t.Inv := by
  obtain ⟨prog, hp, ⟨-, -, rfl⟩ | ⟨i, hf, he⟩⟩ := stepTurn_next h
  · exact hi
  · obtain ⟨hw, hhpc⟩ := fetch_some hp hf
    refine exec_keeps_inv hi hw (fun ha prog' hp' => ?_) he
    cases hp.symm.trans hp'
    exact hhpc ha

/-- The invariants hold in every reachable state. -/
theorem Reachable.inv (hr : Reachable s) : s.Inv :=
  hr.invariant State.Inv.of_isStart (fun hi h => stepTurn_keeps_inv hi h) State.Inv.afterTurn

end Sys2Proof.Machine
end

section
/-! The exceptions (60_exceptions.md): IRQ_COMPLETION where the interrupt is pending (R106), and the faults and refusals
that a run can meet (R103, R104). -/

namespace Sys2Proof.Machine

variable {s t : State}

/-- Settles O27: the pending interrupt is the whole guard; the effect is the two flags and the write of LINE. -/
theorem irqCompletionAcknowledges : Obligations.IrqCompletionAcknowledges :=
  fun _ hl hx hirq => guarded_enabled hl ⟨hx, hirq⟩

/-! ## The faults and refusals of a run -/

/-- A step that answers a next state found no fault and no refusal (R26). -/
theorem live_of_exec_next {i : Instr} (h : exec i s = .next t) : s.live := by
  obtain ⟨e, he⟩ := exec_eq_guarded i s
  obtain ⟨hl, -⟩ := guarded_next (he ▸ h)
  exact hl

/-- FAULT and REFUSED hold nothing but what a run can record: NOT_READY and REINIT (R103, R104). -/
def State.onlyNotReadyOrReinit (s : State) : Prop :=
  (s.fault = none ∨ ∃ hpc, s.fault = some ⟨.notReady, hpc⟩) ∧ (s.refused = none ∨ s.refused = some .reinit)

theorem State.live.onlyNotReadyOrReinit (hl : s.live) : s.onlyNotReadyOrReinit := ⟨.inl hl.1, .inl hl.2⟩

/-- In a run FG_ENCODE raises no fault: its bytes are within the buffer. -/
theorem execFgEncode_fault (hi : s.Inv) (h : execFgEncode s = .next t) : t.fault = s.fault := by
  obtain ⟨-, ⟨cs, count, hp, hc, -, ⟨f, hf, -⟩ | ⟨u, hu, rfl⟩⟩ | rfl⟩ := execFgEncode_next h
  · obtain ⟨-, hfits⟩ := hi.encodeColors_fits hp hc
    obtain ⟨u, hu⟩ : ∃ u, memWriteAll s 0 (encodeColors cs (sint32 count).toNat) = .ok u :=
      memWriteAll_isOk (by rwa [Nat.zero_add])
    cases hf.symm.trans hu
  · exact (congrArg State.fault (memWriteAll_frame hu) :)
  · rfl

/-- In a run DMA_SEND raises no fault: with a transfer in flight the line is enabled (R124) and DMA_IDX within the buffer
(R125). -/
theorem execDmaSend_fault (hi : s.Inv) {data : Byte} (h : execDmaSend data s = .next t) : t.fault = s.fault := by
  obtain ⟨-, ⟨ha, hidx, hout⟩ | rfl⟩ := execDmaSend_next (data := data) h
  · obtain ⟨hline, -⟩ | ⟨-, hrange, -⟩ | ⟨-, -, rfl⟩ := hout
    · cases hline.symm.trans (hi.lineEnabled ha)
    · obtain ⟨-, hlen⟩ := hi.dmaBounds
      omega
    · rfl
  · rfl

/-- Only UPDATE before INIT records a fault and only a second INIT a refusal, where the invariants hold. -/
theorem exec_onlyNotReadyOrReinit (hi : s.Inv) {i : Instr} (h : exec i s = .next t) : t.onlyNotReadyOrReinit := by
  have hl := live_of_exec_next h
  cases i with
  | init =>
    obtain ⟨-, ⟨-, -, rfl⟩ | ⟨-, -, rfl⟩ | rfl⟩ := execInit_next h
    · exact ⟨.inl hl.1, .inr rfl⟩
    · exact hl.onlyNotReadyOrReinit
    · exact hl.onlyNotReadyOrReinit
  | update colors count =>
    obtain ⟨-, ⟨-, -, rfl⟩ | ⟨-, -, rfl⟩ | rfl⟩ := execUpdate_next h
    · exact hl.onlyNotReadyOrReinit
    · exact ⟨.inr ⟨_, rfl⟩, .inl hl.2⟩
    · exact hl.onlyNotReadyOrReinit
  | fgEncode =>
    have hrefused : t.refused = s.refused := (congrArg State.refused (exec_eq_writtenBy h) :)
    exact State.live.onlyNotReadyOrReinit ⟨(execFgEncode_fault hi h).trans hl.1, hrefused.trans hl.2⟩
  | dmaSend data =>
    have hrefused : t.refused = s.refused := (congrArg State.refused (exec_eq_writtenBy h) :)
    exact State.live.onlyNotReadyOrReinit ⟨(execDmaSend_fault hi (data := data) h).trans hl.1, hrefused.trans hl.2⟩
  | fgCheck | fgDrain | fgPrepare | fgGapwait | fgArm | fgReturn | dmaComplete | irqCompletion | timerTick =>
    rw [exec_eq_writtenBy h]
    exact hl.onlyNotReadyOrReinit

theorem stepTurn_onlyNotReadyOrReinit (hi : s.Inv) {turn : Turn} (h : stepTurn turn s = .next t) :
    t.onlyNotReadyOrReinit := by
  obtain ⟨prog, -, ⟨-, hl, rfl⟩ | ⟨i, -, he⟩⟩ := stepTurn_next h
  · exact hl.onlyNotReadyOrReinit
  · exact exec_onlyNotReadyOrReinit hi he

theorem Reachable.onlyNotReadyOrReinit (hr : Reachable s) : s.onlyNotReadyOrReinit := by
  cases hr with
  | start h =>
    obtain ⟨-, -, -, -, -, -, -, -, -, -, hfault, hrefused, -⟩ := h
    exact State.live.onlyNotReadyOrReinit ⟨hfault, hrefused⟩
  | turn _ hr h => exact stepTurn_onlyNotReadyOrReinit hr.inv h
  | step hr h => exact stepTurn_onlyNotReadyOrReinit hr.inv.afterTurn (step_eq ▸ h)

/-- From a live state that meets the invariants every turn answers a next state, once the program decodes. -/
theorem stepTurn_answers_of_inv (turn : Turn) {prog : List HostCmd} (hi : s.Inv) (hl : s.live)
    (hp : resolveInput s.hostInput = .ok prog) : ∃ t, stepTurn turn s = .next t := by
  simp only [stepTurn, hp]
  split
  · exact ⟨s, guarded_held hl id⟩
  · exact exec_answers_of_inv _ hi hl

/-- Settles O41: the invariants hold in every reachable state; under them the raising paths of FG_ENCODE and DMA_SEND are
closed, and every turn of a live state finds its operands. -/
theorem onlyNotReadyAndReinitInRuns : Obligations.OnlyNotReadyAndReinitInRuns := by
  intro s hr
  obtain ⟨hfault, hrefused⟩ := hr.onlyNotReadyOrReinit
  exact ⟨hfault, hrefused, fun turn _ hl hp => stepTurn_answers_of_inv turn hr.inv hl hp⟩

end Sys2Proof.Machine
end

section
/-! The invariants of 70_reset_and_hazards.md: every step keeps them (R122 to R125), the reset state and the start of a
run (R117), and what they say of the transfer and its buffer in every run (R122 to R126). -/

namespace Sys2Proof.Machine

variable {s t : State}

/-! ## Every step -/

/-- What every turn keeps, and the schedule moving on, every step keeps, scheduled or given its turn. -/
theorem kept_of_next {P : State → Prop} (hturn : ∀ {turn s t}, P s → stepTurn turn s = .next t → P t)
    (hsched : ∀ {s}, P s → P s.afterTurn) (hs : P s) (h : step s = .next t ∨ ∃ turn, stepTurn turn s = .next t) :
    P t := by
  obtain h | ⟨turn, h⟩ := h
  · exact hturn (hsched hs) (step_eq ▸ h)
  · exact hturn hs h

/-- Settles O38: every turn runs one operation, which keeps the invariants, and they do not speak of the schedule. -/
theorem everyStepKeepsTheInvariants : Obligations.EveryStepKeepsTheInvariants :=
  fun _ _ hi h => kept_of_next (fun hi h => stepTurn_keeps_inv hi h) State.Inv.afterTurn hi h

/-! ## Reset and the start of a run -/

/-- The OPEN parameters of the reset state are within R9's bound, by the type of `maxPixelsPred`. -/
theorem reset_params_valid : State.reset.params.valid := by
  have hlt := Config.maxPixelsPred.isLt
  refine ⟨Nat.le_add_left _ _, ?_⟩
  change 24 * (Config.maxPixelsPred.val + 1) ≤ 2 ^ 31 - 1
  omega

theorem reset_isStart : State.reset.isStart :=
  ⟨rfl, rfl, rfl, rfl, rfl, rfl, rfl, rfl, rfl, rfl, rfl, rfl, rfl, rfl, rfl, reset_params_valid, reset_buf_wf, nofun⟩

/-- Settles O37: the reset state is one that a run starts from. -/
theorem invariantsHoldAtStart : Obligations.InvariantsHoldAtStart :=
  ⟨.of_isStart reset_isStart, fun _ h => .of_isStart h⟩

theorem guardHolds_of_enables {i : Instr} (h : s.enables i = true) : guardHolds i s = true := by
  simp only [State.enables, Bool.and_eq_true] at h
  obtain ⟨⟨-, hg⟩, -⟩ := h
  exact hg

/-- Before INIT only a command's guard can hold: no call is in progress, no transfer, no interrupt, no tick (R117). -/
theorem agent_eq_host_of_isStart {i : Instr} (h : s.isStart) (hg : guardHolds i s = true) : i.agent = .host := by
  obtain ⟨hready, hphase, -, -, -, hactive, -, -, hxfer, -⟩ := h
  cases i with
  | init | update => rfl
  | fgCheck | fgDrain | fgPrepare | fgEncode | fgGapwait | fgArm | fgReturn => simp [guardHolds, hphase] at hg
  | dmaSend | dmaComplete => simp [guardHolds, hactive] at hg
  | irqCompletion => simp [guardHolds, hxfer] at hg
  | timerTick => simp [guardHolds, hready] at hg

/-- Settles O36: the reset state's values are R35's, and in a start state no guard but a command's holds. -/
theorem resetState : Obligations.ResetState :=
  ⟨reset_isStart, fun _ h _ he => agent_eq_host_of_isStart h (guardHolds_of_enables he)⟩

/-! ## The transfer flags -/

/-- Settles O39: R122, R123 and R124 are among the invariants of every reachable state. -/
theorem transferFlagsInEveryRun : Obligations.TransferFlagsInEveryRun := by
  intro s hr
  have hi := hr.inv
  refine ⟨fun hready => ⟨hi.txDone hready, hi.exclusive⟩, fun hready hp => ?_, hi.lineEnabled⟩
  obtain ⟨hx, ha, hxfer⟩ := hi.idleBeforeArm hready hp
  refine ⟨hx, ha, hxfer, Bool.eq_false_iff.2 fun he => ?_⟩
  simpa [guardHolds, hxfer] using guardHolds_of_enables he

/-- Settles O42: FG_ARM's guard is a phase of R123. -/
theorem atMostOneTransferInFlight : Obligations.AtMostOneTransferInFlight := by
  intro s hr he
  have hp : s.phase = .arm := of_decide_eq_true (guardHolds_of_enables he)
  exact hr.inv.idle_of_beforeArm (.inr (.inr (.inr hp)))

/-! ## The buffer in flight -/

/-- With a transfer in flight or its completion pending the controller is in none of the phases between the drain and the
transfer (R123). -/
theorem State.Inv.not_beforeArm_of_transfer (hi : s.Inv) (h : s.dmaActive = true ∨ s.xferDone = true) :
    ¬ s.phase.beforeArm := by
  intro hp
  obtain ⟨-, ha, hx⟩ := hi.idle_of_beforeArm hp
  simp [ha, hx] at h

/-- FG_ENCODE alone writes the buffer, and only in its own phase (R48, R78). -/
theorem exec_buf {i : Instr} (hp : s.phase ≠ .encode) (h : exec i s = .next t) : t.buf = s.buf := by
  cases i with
  | fgEncode =>
    obtain ⟨-, ⟨cs, count, hencode, -⟩ | rfl⟩ := execFgEncode_next h
    · exact absurd hencode hp
    · rfl
  | init | update | fgCheck | fgDrain | fgPrepare | fgGapwait | fgArm | fgReturn | dmaSend | dmaComplete | irqCompletion
  | timerTick =>
    exact (congrArg State.buf (exec_eq_writtenBy h) :)

theorem stepTurn_buf {turn : Turn} (hp : s.phase ≠ .encode) (h : stepTurn turn s = .next t) : t.buf = s.buf := by
  obtain ⟨prog, -, ⟨-, -, rfl⟩ | ⟨i, -, he⟩⟩ := stepTurn_next h
  · rfl
  · exact exec_buf hp he

/-- A frame that the buffer holds is read byte by byte. -/
theorem State.holdsFrame.bufByte {cs : List Color} (h : s.holdsFrame cs) {i : Nat} (hi : i < transferLength cs.length) :
    some (s.bufByte i) = (encodeColors cs cs.length)[i]? := by
  rw [← h, State.bufBytes, List.getElem?_map, List.getElem?_range hi]
  rfl

/-- Settles O40: the frame in flight is the invariants' (R125), and with a transfer in flight the phase is not FG_ENCODE's,
which alone writes the buffer. -/
theorem bufferIsExclusiveInFlight : Obligations.BufferIsExclusiveInFlight := by
  intro s hr ha
  have hi := hr.inv
  have hp : s.phase ≠ .encode := fun hp => hi.not_beforeArm_of_transfer (.inl ha) (.inr (.inl hp))
  obtain ⟨hidx, hlen⟩ := hi.dmaBounds
  obtain ⟨cs, hmin, -, hframe, hholds⟩ := hi.inFlight ha
  refine ⟨hidx, hlen, Bool.eq_false_iff.2 fun he => hp (of_decide_eq_true (guardHolds_of_enables he)),
    ⟨cs, hmin, hframe, fun i hlt => hholds.bufByte (hframe ▸ hlt)⟩, fun turn t h i => ?_⟩
  rw [State.bufByte, stepTurn_buf hp h]
  rfl

end Sys2Proof.Machine
end

section
/-! The reset-gap law (70_reset_and_hazards.md R127): what its derivation keeps, along every operation, and the law in
every run. -/

namespace Sys2Proof.Machine

variable {s t : State}

/-! ## The reader of the trace -/

/-- The reader of R127 goes over a trace once, event by event. -/
@[simp] theorem gapScan_concat (trace : List WireEvent) (e : WireEvent) :
    gapScan (trace ++ [e]) = (gapScan trace).next e := by
  rw [gapScan, List.foldl_concat]
  rfl

/-- Only an Enable is judged by the reader. -/
theorem gapsKept_concat {trace : List WireEvent} {e : WireEvent} (h : gapsKept trace) (he : e ≠ .enable) :
    gapsKept (trace ++ [e]) := by
  cases e with
  | enable => exact absurd rfl he
  | disable | byte | tick => simpa [gapsKept, GapScan.next] using h

/-- Outside Preparing the law asks for nothing but the gaps so far. -/
theorem State.GapInv.of_not_preparing (hk : gapsKept t.trace) (hp : ¬ t.preparing) : t.GapInv where
  kept := hk
  measured := fun h => absurd h hp
  elapsed := fun h => absurd (.inr (.inr h)) hp

/-! ## Each operation -/

theorem execInit_keeps_gap (hg : s.GapInv) (h : execInit s = .next t) : t.GapInv := by
  obtain ⟨-, ⟨-, -, rfl⟩ | ⟨hp, -, rfl⟩ | rfl⟩ := execInit_next h
  · exact { hg with }
  · exact .of_not_preparing (gapsKept_concat hg.kept nofun) (by simp [hp])
  · exact hg

theorem execUpdate_keeps_gap (hg : s.GapInv) {colors : Option (List Color)} {count : Word}
    (h : execUpdate colors count s = .next t) : t.GapInv := by
  obtain ⟨-, ⟨-, -, rfl⟩ | ⟨-, -, rfl⟩ | rfl⟩ := execUpdate_next h
  · exact .of_not_preparing hg.kept (by simp)
  · exact { hg with }
  · exact hg

theorem execFgCheck_keeps_gap (hg : s.GapInv) (h : execFgCheck s = .next t) : t.GapInv := by
  obtain ⟨-, ⟨c, -, -, ⟨-, rfl⟩ | ⟨-, -, rfl⟩ | ⟨-, -, rfl⟩⟩ | rfl⟩ := execFgCheck_next h
  · exact .of_not_preparing hg.kept (by simp)
  · exact .of_not_preparing hg.kept (by simp)
  · exact .of_not_preparing hg.kept (by simp)
  · exact hg

theorem execFgDrain_keeps_gap (hg : s.GapInv) (h : execFgDrain s = .next t) : t.GapInv := by
  obtain ⟨-, ⟨-, -, rfl⟩ | rfl⟩ := execFgDrain_next h
  · exact .of_not_preparing hg.kept (by simp)
  · exact hg

/-- FG_PREPARE's Disable is the one the gap is counted from, with TIMER at 0. -/
theorem execFgPrepare_keeps_gap (hg : s.GapInv) (h : execFgPrepare s = .next t) : t.GapInv := by
  obtain ⟨-, ⟨-, rfl⟩ | rfl⟩ := execFgPrepare_next h
  · exact {
      kept := gapsKept_concat hg.kept nofun
      measured := by simp [Line.event, GapScan.next]
      elapsed := by simp }
  · exact hg

theorem execFgEncode_keeps_gap (hg : s.GapInv) (h : execFgEncode s = .next t) : t.GapInv := by
  obtain ⟨-, ⟨cs, count, hp, -, -, ⟨f, -, rfl⟩ | ⟨u, hu, rfl⟩⟩ | rfl⟩ := execFgEncode_next h
  · exact { hg with }
  · obtain ⟨m, rfl⟩ : ∃ m, u = s.withBuf m := ⟨u.buf, memWriteAll_frame hu⟩
    exact { hg with
      measured := fun _ => hg.measured (.inl hp)
      elapsed := by simp }
  · exact hg

/-- FG_GAPWAIT reads from TIMER that there were ticks enough. -/
theorem execFgGapwait_keeps_gap (hg : s.GapInv) (h : execFgGapwait s = .next t) : t.GapInv := by
  obtain ⟨-, ⟨hp, helapsed, rfl⟩ | rfl⟩ := execFgGapwait_next h
  · have hprep : s.preparing := .inr (.inl hp)
    obtain ⟨-, -, hticks⟩ := hg.measured hprep
    exact { hg with
      measured := fun _ => hg.measured hprep
      elapsed := fun _ => helapsed.trans hticks }
  · exact hg

/-- FG_ARM's Enable finds its own Disable, no byte since, and ticks enough. -/
theorem execFgArm_keeps_gap (hg : s.GapInv) (h : execFgArm s = .next t) : t.GapInv := by
  obtain ⟨-, ⟨c, hp, -, -, rfl⟩ | rfl⟩ := execFgArm_next h
  · obtain ⟨hdisabled, hsent, -⟩ := hg.measured (.inr (.inr hp))
    have hkept : (gapScan s.trace).ok = true := hg.kept
    refine .of_not_preparing ?_ (by simp)
    simp [gapsKept, Line.event, GapScan.next, hkept, hdisabled, hsent, hg.elapsed hp]
  · exact hg

theorem execFgReturn_keeps_gap (hg : s.GapInv) {data : Byte} (h : execFgReturn data s = .next t) : t.GapInv := by
  obtain ⟨-, ⟨st, -, -, rfl⟩ | rfl⟩ := execFgReturn_next (data := data) h
  · exact .of_not_preparing hg.kept (by simp)
  · exact hg

theorem execDmaSend_keeps_gap (hi : s.Inv) (hg : s.GapInv) {data : Byte} (h : execDmaSend data s = .next t) :
    t.GapInv := by
  obtain ⟨-, ⟨ha, -, ⟨-, rfl⟩ | ⟨-, -, rfl⟩ | ⟨-, -, rfl⟩⟩ | rfl⟩ := execDmaSend_next (data := data) h
  · exact { hg with }
  · exact { hg with }
  · exact .of_not_preparing (gapsKept_concat hg.kept nofun) fun hp =>
      hi.not_beforeArm_of_transfer (.inl ha) (.inr hp)
  · exact hg

theorem execDmaComplete_keeps_gap (hg : s.GapInv) (h : execDmaComplete s = .next t) : t.GapInv := by
  obtain ⟨-, ⟨-, -, rfl⟩ | rfl⟩ := execDmaComplete_next h
  · exact { hg with }
  · exact hg

theorem execIrqCompletion_keeps_gap (hi : s.Inv) (hg : s.GapInv) (h : execIrqCompletion s = .next t) : t.GapInv := by
  obtain ⟨-, ⟨hx, -, rfl⟩ | rfl⟩ := execIrqCompletion_next h
  · exact .of_not_preparing (gapsKept_concat hg.kept nofun) fun hp =>
      hi.not_beforeArm_of_transfer (.inr hx) (.inr hp)
  · exact hg

/-- A tick counts one on the wire, and TIMER counts at most one, where it does not wrap. -/
theorem execTimerTick_keeps_gap (hg : s.GapInv) (h : execTimerTick s = .next t) : t.GapInv := by
  obtain ⟨-, ⟨-, rfl⟩ | rfl⟩ := execTimerTick_next h
  · refine ⟨gapsKept_concat hg.kept nofun, fun hp => ?_, fun hp => ?_⟩
    · obtain ⟨hdisabled, hsent, hticks⟩ := hg.measured hp
      have hcount : (s.timer + 1).toNat ≤ s.timer.toNat + 1 := by
        rw [BitVec.toNat_add]
        exact Nat.mod_le _ _
      simp only [State.emit_trace, gapScan_concat, GapScan.next]
      exact ⟨hdisabled, hsent, hcount.trans (Nat.succ_le_succ hticks)⟩
    · simp only [State.emit_trace, gapScan_concat, GapScan.next]
      exact (hg.elapsed hp).trans (Nat.le_succ _)
  · exact hg

theorem exec_keeps_gap (hi : s.Inv) (hg : s.GapInv) {i : Instr} (h : exec i s = .next t) : t.GapInv := by
  cases i with
  | init => exact execInit_keeps_gap hg h
  | update colors count => exact execUpdate_keeps_gap hg h
  | fgCheck => exact execFgCheck_keeps_gap hg h
  | fgDrain => exact execFgDrain_keeps_gap hg h
  | fgPrepare => exact execFgPrepare_keeps_gap hg h
  | fgEncode => exact execFgEncode_keeps_gap hg h
  | fgGapwait => exact execFgGapwait_keeps_gap hg h
  | fgArm => exact execFgArm_keeps_gap hg h
  | fgReturn data => exact execFgReturn_keeps_gap hg (data := data) h
  | dmaSend data => exact execDmaSend_keeps_gap hi hg (data := data) h
  | dmaComplete => exact execDmaComplete_keeps_gap hg h
  | irqCompletion => exact execIrqCompletion_keeps_gap hi hg h
  | timerTick => exact execTimerTick_keeps_gap hg h

/-! ## Runs -/

theorem stepTurn_keeps_gap {turn : Turn} (hi : s.Inv) (hg : s.GapInv) (h : stepTurn turn s = .next t) : t.GapInv := by
  obtain ⟨prog, -, ⟨-, -, rfl⟩ | ⟨i, -, he⟩⟩ := stepTurn_next h
  · exact hg
  · exact exec_keeps_gap hi hg he

theorem State.GapInv.afterTurn (hg : s.GapInv) : s.afterTurn.GapInv := by
  rw [State.afterTurn_eq]
  split <;> exact { hg with }

/-- The invariants with what the gap law rests on, which is kept along a run. -/
def State.InvWithGap (s : State) : Prop := s.Inv ∧ s.GapInv

theorem stepTurn_keeps_invWithGap {turn : Turn} (hs : s.InvWithGap) (h : stepTurn turn s = .next t) : t.InvWithGap := by
  obtain ⟨hi, hg⟩ := hs
  exact ⟨stepTurn_keeps_inv hi h, stepTurn_keeps_gap hi hg h⟩

theorem State.InvWithGap.afterTurn (hs : s.InvWithGap) : s.afterTurn.InvWithGap := by
  obtain ⟨hi, hg⟩ := hs
  exact ⟨State.Inv.afterTurn hi, State.GapInv.afterTurn hg⟩

/-- Settles O44: by the case analysis over the operations, with the invariants for the phases that a transfer excludes. -/
theorem everyStepKeepsTheGap : Obligations.EveryStepKeepsTheGap := by
  intro s t hi hg h
  obtain ⟨-, hgt⟩ := kept_of_next stepTurn_keeps_invWithGap State.InvWithGap.afterTurn ⟨hi, hg⟩ h
  exact hgt

theorem State.InvWithGap.of_isStart (h : s.isStart) : s.InvWithGap := by
  refine ⟨.of_isStart h, ?_⟩
  obtain ⟨-, hphase, -, -, -, -, -, -, -, -, -, -, htrace, -⟩ := h
  refine .of_not_preparing ?_ (by simp [hphase])
  rw [htrace]
  rfl

/-- Settles O45: what the gap law rests on holds in every reachable state. -/
theorem resetGapLaw : Obligations.ResetGapLaw := by
  intro s hr
  obtain ⟨-, hg⟩ := hr.invariant State.InvWithGap.of_isStart stepTurn_keeps_invWithGap State.InvWithGap.afterTurn
  exact hg.kept

end Sys2Proof.Machine
end

section
/-! The frame law (70_reset_and_hazards.md R129, 10_state.md R28): what its derivation keeps, along every operation, and
the law in every run and at its end. -/

namespace Sys2Proof.Machine

variable {s t : State} {prog : List HostCmd}

/-! ## The reader of the trace -/

/-- The reader of R129 goes over a trace once, event by event. -/
@[simp] theorem frameScan_concat (trace : List WireEvent) (e : WireEvent) :
    frameScan (trace ++ [e]) = (frameScan trace).next e := by
  rw [frameScan, List.foldl_concat]
  rfl

/-- A Disable outside a frame ends none. -/
theorem FrameScan.next_disable_of_closed {f : FrameScan} (h : f.isOpen = false) : f.next .disable = f := by
  simp [FrameScan.next, h]

/-- A Disable in a frame ends it. -/
theorem FrameScan.next_disable_of_open {f : FrameScan} (h : f.isOpen = true) :
    f.next .disable = ⟨false, [], f.frames ++ [f.bytes]⟩ := by
  simp [FrameScan.next, h]

/-! ## The calls of a program and the frames due for them -/

/-- The calls among the commands issued, once the next one is issued too. -/
theorem updatesOf_take_succ {n : Nat} {c : HostCmd} (h : prog[n]? = some c) :
    updatesOf (prog.take (n + 1)) = updatesOf (prog.take n) ++ updatesOf [c] := by
  rw [List.take_add_one, h, updatesOf, List.filterMap_append]
  rfl

/-- A call that has not returned has no frame due. -/
theorem framesDue_concat_call {us : List Operands} {rs : List Status} (c : Operands) (h : us.length = rs.length) :
    framesDue (us ++ [c]) rs = framesDue us rs := by
  have hzip := List.zip_append (l₁ := us) (r₁ := [c]) (l₂ := rs) (r₂ := []) h
  rw [List.append_nil] at hzip
  simp [framesDue, hzip]

/-- The frame of the last call comes last. -/
theorem framesDue_concat {us : List Operands} {rs : List Status} (c : Operands) (st : Status)
    (h : us.length = rs.length) : framesDue (us ++ [c]) (rs ++ [st]) = framesDue us rs ++ (frameDue (c, st)).toList := by
  rw [framesDue, List.zip_append h, List.filterMap_append]
  cases hd : frameDue (c, st) <;> simp [framesDue, hd]

/-- A turn that runs a command runs `HOSTPROG[HPC]` (10_state.md R29). -/
theorem fetch_command {turn : Turn} {c : HostCmd} (h : fetch prog s turn = some c.toInstr) : prog[s.hpc]? = some c := by
  cases turn with
  | host =>
    obtain ⟨c', hc', heq⟩ := Option.map_eq_some_iff.1 h
    rw [hc']
    cases c <;> cases c' <;> cases heq <;> rfl
  | internal e =>
    have heq : e.toInstr = c.toInstr := Option.some.inj h
    cases e <;> cases c <;> cases heq

/-! ## What the frame law's state says of the call in progress -/

/-- The call in progress is the last one issued, after as many as have returned. -/
theorem State.FrameInv.updatesOf_inCall (hf : s.FrameInv prog) (hp : s.phase ≠ .nocall) {c : Operands}
    (hc : s.cur = some c) : ∃ us, updatesOf (prog.take s.hpc) = us ++ [c] ∧ us.length = s.returns.length := by
  obtain ⟨us, hus⟩ := List.getLast?_eq_some_iff.1 ((hf.serving hp).trans hc)
  have hcount := hf.counted
  rw [hus, List.length_append, List.length_singleton, if_neg hp] at hcount
  exact ⟨us, hus, Nat.add_right_cancel hcount⟩

/-- The frame that a status of the call in progress makes due. -/
theorem State.FrameInv.framesDue_inCall (hf : s.FrameInv prog) (hp : s.phase ≠ .nocall) {c : Operands}
    (hc : s.cur = some c) (st : Status) :
    framesDue (updatesOf (prog.take s.hpc)) (s.returns ++ [st]) =
      framesDue (updatesOf (prog.take s.hpc)) s.returns ++ (frameDue (c, st)).toList := by
  obtain ⟨us, hus, hlen⟩ := hf.updatesOf_inCall hp hc
  rw [hus, framesDue_concat c st hlen, framesDue_concat_call c hlen]

/-- Where TX_DONE is set no frame is open. -/
theorem State.FrameInv.closed (hf : s.FrameInv prog) (hx : s.txDone = true) : (frameScan s.trace).isOpen = false := by
  rw [hf.isOpen, hx, Bool.not_true, Bool.and_false]

/-- Before the call's return, with no frame open, the frames ended are those of the calls returned. -/
theorem State.FrameInv.frames_of_closed (hf : s.FrameInv prog) (hx : s.txDone = true) (hst : s.status = none) :
    (frameScan s.trace).frames = framesDue (updatesOf (prog.take s.hpc)) s.returns := by
  simpa [hf.closed hx, hst] using hf.frames

/-- After INIT a frame is open while TX_DONE is clear. -/
theorem State.FrameInv.opened (hf : s.FrameInv prog) (hr : s.ready = true) (hx : s.txDone = false) :
    (frameScan s.trace).isOpen = true := by
  rw [hf.isOpen, hr, hx, Bool.not_false, Bool.and_true]

/-! ## The updates that the operations share -/

/-- A write of LINE disabled where no frame is open. -/
theorem State.FrameInv.drive_disabled (hf : s.FrameInv prog) (hx : s.txDone = true) :
    (s.drive .disabled).FrameInv prog := by
  have hscan : frameScan (s.drive .disabled).trace = frameScan s.trace := by
    rw [State.drive_trace, frameScan_concat]
    exact FrameScan.next_disable_of_closed (hf.closed hx)
  exact {
    counted := hf.counted
    serving := hf.serving
    isOpen := hscan ▸ hf.isOpen
    bytes := hscan ▸ hf.bytes
    frames := hscan ▸ hf.frames }

/-- A move from one phase of a call to another. -/
theorem State.FrameInv.move (hf : s.FrameInv prog) {p : Phase} (hs : s.phase ≠ .nocall) (hp : p ≠ .nocall) :
    ({ s with phase := p } : State).FrameInv prog :=
  { hf with
    counted := by simpa [hs, hp] using hf.counted
    serving := fun _ => hf.serving hs }

/-- FG_CHECK's rejection makes no frame due. -/
theorem State.FrameInv.reject (hf : s.FrameInv prog) (hi : s.Inv) (hp : s.phase = .check) {c : Operands}
    (hc : s.cur = some c) {st : Status} (hst : st ≠ .ok) :
    ({ s with status := some st, phase := .return } : State).FrameInv prog := by
  have hcall : s.phase ≠ .nocall := by simp [hp]
  have hnone : s.status = none := hi.statusAtReturn.2 (by simp [hp])
  have hdue : frameDue (c, st) = none := by cases st <;> simp [frameDue] at hst ⊢
  have hmoved := hf.move hcall (p := .return) (by simp)
  refine { hmoved with frames := ?_ }
  have hframes := hf.frames
  rw [hnone, Option.toList_none, List.append_nil] at hframes
  change _ = framesDue (updatesOf (prog.take s.hpc)) (s.returns ++ [st])
  rw [hf.framesDue_inCall hcall hc, hdue, Option.toList_none, List.append_nil]
  exact hframes

/-! ## Each operation -/

theorem execInit_keeps_frames (hf : s.FrameInv prog) (hnext : prog[s.hpc]? = some .init) (h : execInit s = .next t) :
    t.FrameInv prog := by
  obtain ⟨-, ⟨-, -, rfl⟩ | ⟨hp, hr, rfl⟩ | rfl⟩ := execInit_next h
  · exact { hf with }
  · have hclosed : (frameScan s.trace).isOpen = false := by rw [hf.isOpen, hr, Bool.false_and]
    have hcalls : updatesOf (prog.take (s.hpc + 1)) = updatesOf (prog.take s.hpc) :=
      (updatesOf_take_succ hnext).trans (List.append_nil _)
    have hscan : frameScan (s.trace ++ [Line.disabled.event]) = frameScan s.trace :=
      (frameScan_concat _ _).trans (FrameScan.next_disable_of_closed hclosed)
    refine ⟨?_, ?_, ?_, ?_, ?_⟩
    · exact (congrArg List.length hcalls).trans hf.counted
    · simp [hp]
    · simp [hscan, hclosed]
    · simp [hscan, hclosed]
    · simpa [hscan, hclosed, hcalls] using hf.frames
  · exact hf

theorem execUpdate_keeps_frames (hi : s.Inv) (hf : s.FrameInv prog) {colors : Option (List Color)} {count : Word}
    (hnext : prog[s.hpc]? = some (.update colors count)) (h : execUpdate colors count s = .next t) :
    t.FrameInv prog := by
  obtain ⟨-, ⟨hp, -, rfl⟩ | ⟨-, -, rfl⟩ | rfl⟩ := execUpdate_next h
  · have hnone : s.status = none := hi.statusAtReturn.2 (by simp [hp])
    have hcalls : updatesOf (prog.take (s.hpc + 1)) = updatesOf (prog.take s.hpc) ++ [⟨colors, count⟩] :=
      updatesOf_take_succ hnext
    have hlen : (updatesOf (prog.take s.hpc)).length = s.returns.length := by simpa [hp] using hf.counted
    exact { hf with
      counted := by simp [hcalls, hlen]
      serving := by simp [hcalls]
      frames := hf.frames.trans (by simp [hcalls, hnone, framesDue_concat_call _ hlen]) }
  · exact { hf with }
  · exact hf

theorem execFgCheck_keeps_frames (hi : s.Inv) (hf : s.FrameInv prog) (h : execFgCheck s = .next t) :
    t.FrameInv prog := by
  obtain ⟨-, ⟨c, hp, hc, ⟨-, rfl⟩ | ⟨-, -, rfl⟩ | ⟨-, -, rfl⟩⟩ | rfl⟩ := execFgCheck_next h
  · exact hf.reject hi hp hc nofun
  · exact hf.reject hi hp hc nofun
  · exact hf.move (by simp [hp]) (by simp)
  · exact hf

theorem execFgDrain_keeps_frames (hf : s.FrameInv prog) (h : execFgDrain s = .next t) : t.FrameInv prog := by
  obtain ⟨-, ⟨hp, -, rfl⟩ | rfl⟩ := execFgDrain_next h
  · exact hf.move (by simp [hp]) (by simp)
  · exact hf

theorem execFgPrepare_keeps_frames (hi : s.Inv) (hf : s.FrameInv prog) (h : execFgPrepare s = .next t) :
    t.FrameInv prog := by
  obtain ⟨-, ⟨hp, rfl⟩ | rfl⟩ := execFgPrepare_next h
  · obtain ⟨hx, -⟩ := hi.idle_of_beforeArm (.inl hp)
    have hmoved : ({ s with phase := .encode } : State).FrameInv prog := hf.move (by simp [hp]) (by simp)
    exact { hmoved.drive_disabled hx with }
  · exact hf

theorem execFgEncode_keeps_frames (hi : s.Inv) (hf : s.FrameInv prog) (h : execFgEncode s = .next t) :
    t.FrameInv prog := by
  obtain ⟨-, ⟨cs, count, hp, -, -, ⟨f, -, rfl⟩ | ⟨u, hu, rfl⟩⟩ | rfl⟩ := execFgEncode_next h
  · exact { hf with }
  · obtain ⟨m, rfl⟩ : ∃ m, u = s.withBuf m := ⟨u.buf, memWriteAll_frame hu⟩
    obtain ⟨hx, -⟩ := hi.idle_of_beforeArm (.inr (.inl hp))
    have hclosed := hf.closed hx
    have hmoved : ({ s with phase := .gapwait } : State).FrameInv prog := hf.move (by simp [hp]) (by simp)
    exact { hmoved with
      bytes := by simp [hclosed]
      frames := by simpa [hclosed] using hf.frames }
  · exact hf

theorem execFgGapwait_keeps_frames (hf : s.FrameInv prog) (h : execFgGapwait s = .next t) : t.FrameInv prog := by
  obtain ⟨-, ⟨hp, -, rfl⟩ | rfl⟩ := execFgGapwait_next h
  · exact hf.move (by simp [hp]) (by simp)
  · exact hf

/-- FG_ARM opens the frame of its call, which the buffer holds. -/
theorem execFgArm_keeps_frames (hi : s.Inv) (hf : s.FrameInv prog) (h : execFgArm s = .next t) : t.FrameInv prog := by
  obtain ⟨-, ⟨c, hp, hc, -, rfl⟩ | rfl⟩ := execFgArm_next h
  · have hbefore : s.phase.beforeArm := .inr (.inr (.inr hp))
    have hcall : s.phase ≠ .nocall := by simp [hp]
    have hready := hi.ready_of_inCall hcall
    obtain ⟨hx, -⟩ := hi.idle_of_beforeArm hbefore
    have hnone : s.status = none := hi.statusAtReturn.2 (by simp [hp])
    obtain ⟨cs, count, hc', hlen, -⟩ := hi.admitted_of_beforeArm hbefore
    cases hc.symm.trans hc'
    have hn : (sint32 count).toNat = cs.length := by omega
    have hholds : s.bufBytes (transferLength cs.length) = encodeColors cs cs.length :=
      hi.encoded (.inr hp) cs count hc
    have hdue := hf.framesDue_inCall hcall hc .ok
    refine ⟨?_, ?_, ?_, ?_, ?_⟩
    · simpa [hcall] using hf.counted
    · exact fun _ => hf.serving hcall
    · simp [Line.event, FrameScan.next, hready]
    · simp [Line.event, FrameScan.next, State.bufBytes]
    · change (frameScan (s.trace ++ [.enable])).frames ++
        (if (frameScan (s.trace ++ [.enable])).isOpen = true then [s.bufBytes (transferLength (sint32 count).toNat)]
          else []) = framesDue (updatesOf (prog.take s.hpc)) (s.returns ++ [.ok])
      simp [FrameScan.next, hn, hholds, hdue, frameDue, hf.frames_of_closed hx hnone]
  · exact hf

theorem execFgReturn_keeps_frames (hf : s.FrameInv prog) {data : Byte} (h : execFgReturn data s = .next t) :
    t.FrameInv prog := by
  obtain ⟨-, ⟨st, hp, hst, rfl⟩ | rfl⟩ := execFgReturn_next (data := data) h
  · exact { hf with
      counted := by simpa [hp] using hf.counted
      serving := by simp
      frames := hf.frames.trans (by simp [hst]) }
  · exact hf

/-- The bytes at offsets 0 to n, the last one apart. -/
theorem State.bufBytes_succ (s : State) (n : Nat) : s.bufBytes (n + 1) = s.bufBytes n ++ [s.bufByte n] := by
  simp [State.bufBytes, List.range_succ]

/-- DMA_SEND puts the next byte of the buffer into the open frame. -/
theorem execDmaSend_keeps_frames (hi : s.Inv) (hf : s.FrameInv prog) {data : Byte} (h : execDmaSend data s = .next t) :
    t.FrameInv prog := by
  obtain ⟨-, ⟨ha, -, ⟨-, rfl⟩ | ⟨-, -, rfl⟩ | ⟨-, -, rfl⟩⟩ | rfl⟩ := execDmaSend_next (data := data) h
  · exact { hf with }
  · exact { hf with }
  · have hopen := hf.opened (hi.ready_of_dmaActive ha) (hi.txDone_of_dmaActive ha)
    refine ⟨hf.counted, hf.serving, ?_, fun _ => ?_, ?_⟩
    · simpa [FrameScan.next] using hf.isOpen
    · simp only [State.emit_trace, frameScan_concat, FrameScan.next, State.emit_dmaIdx]
      rw [State.bufBytes_succ, hf.bytes hopen]
      rfl
    · rw [State.emit_trace, frameScan_concat]
      exact hf.frames
  · exact hf

theorem execDmaComplete_keeps_frames (hf : s.FrameInv prog) (h : execDmaComplete s = .next t) : t.FrameInv prog := by
  obtain ⟨-, ⟨-, -, rfl⟩ | rfl⟩ := execDmaComplete_next h
  · exact { hf with }
  · exact hf

/-- A pending completion is of a transfer after INIT that TX_DONE does not count as handled (R122). -/
theorem State.Inv.open_of_xferDone (hi : s.Inv) (hx : s.xferDone = true) : s.ready = true ∧ s.txDone = false := by
  have hready : s.ready = true := by
    by_contra h
    obtain ⟨-, -, hnone, -⟩ := hi.beforeInit (Bool.eq_false_iff.2 h)
    exact Bool.false_ne_true (hnone.symm.trans hx)
  refine ⟨hready, Bool.eq_false_iff.2 fun htx => ?_⟩
  obtain ⟨-, hnone⟩ := (hi.txDone hready).1 htx
  exact Bool.false_ne_true (hnone.symm.trans hx)

/-- IRQ_COMPLETION ends the open frame, after its last byte. -/
theorem execIrqCompletion_keeps_frames (hi : s.Inv) (hf : s.FrameInv prog) (h : execIrqCompletion s = .next t) :
    t.FrameInv prog := by
  obtain ⟨-, ⟨hx, -, rfl⟩ | rfl⟩ := execIrqCompletion_next h
  · obtain ⟨hready, htx⟩ := hi.open_of_xferDone hx
    have hopen := hf.opened hready htx
    have hbytes : (frameScan s.trace).bytes = s.bufBytes s.dmaLen := hi.allSent hx ▸ hf.bytes hopen
    have hscan : frameScan (s.trace ++ [Line.disabled.event]) =
        ⟨false, [], (frameScan s.trace).frames ++ [s.bufBytes s.dmaLen]⟩ := by
      rw [frameScan_concat, ← hbytes]
      exact FrameScan.next_disable_of_open hopen
    refine ⟨hf.counted, hf.serving, ?_, ?_, ?_⟩
    · simp [hscan]
    · simp [hscan]
    · simpa [hscan, hopen] using hf.frames
  · exact hf

theorem execTimerTick_keeps_frames (hf : s.FrameInv prog) (h : execTimerTick s = .next t) : t.FrameInv prog := by
  obtain ⟨-, ⟨-, rfl⟩ | rfl⟩ := execTimerTick_next h
  · have hscan : frameScan (s.trace ++ [.tick]) = frameScan s.trace := frameScan_concat _ _
    exact { hf with
      isOpen := hscan ▸ hf.isOpen
      bytes := hscan ▸ hf.bytes
      frames := hscan ▸ hf.frames }
  · exact hf

/-- Every operation keeps what the frame law rests on, a command where it is the host's next. -/
theorem exec_keeps_frames (hi : s.Inv) (hf : s.FrameInv prog) {i : Instr}
    (hnext : ∀ c : HostCmd, i = c.toInstr → prog[s.hpc]? = some c) (h : exec i s = .next t) : t.FrameInv prog := by
  cases i with
  | init => exact execInit_keeps_frames hf (hnext .init rfl) h
  | update colors count => exact execUpdate_keeps_frames hi hf (hnext (.update colors count) rfl) h
  | fgCheck => exact execFgCheck_keeps_frames hi hf h
  | fgDrain => exact execFgDrain_keeps_frames hf h
  | fgPrepare => exact execFgPrepare_keeps_frames hi hf h
  | fgEncode => exact execFgEncode_keeps_frames hi hf h
  | fgGapwait => exact execFgGapwait_keeps_frames hf h
  | fgArm => exact execFgArm_keeps_frames hi hf h
  | fgReturn data => exact execFgReturn_keeps_frames hf (data := data) h
  | dmaSend data => exact execDmaSend_keeps_frames hi hf (data := data) h
  | dmaComplete => exact execDmaComplete_keeps_frames hf h
  | irqCompletion => exact execIrqCompletion_keeps_frames hi hf h
  | timerTick => exact execTimerTick_keeps_frames hf h

/-! ## Runs -/

/-- No step writes the host's program (10_state.md R29). -/
theorem stepTurn_hostInput {turn : Turn} (h : stepTurn turn s = .next t) : t.hostInput = s.hostInput := by
  obtain ⟨prog, -, ⟨-, -, rfl⟩ | ⟨i, -, he⟩⟩ := stepTurn_next h
  · rfl
  · obtain ⟨-, -, hinput, -⟩ := agentsWriteOnlyTheirFields i s t he
    exact hinput

/-- The invariants with what the frame law rests on, of the program that the input resolves to. -/
structure State.InvWithFrames (prog : List HostCmd) (s : State) : Prop where
  resolved : resolveInput s.hostInput = .ok prog
  inv : s.Inv
  framed : s.FrameInv prog

theorem stepTurn_keeps_invWithFrames {turn : Turn} (hs : s.InvWithFrames prog) (h : stepTurn turn s = .next t) :
    t.InvWithFrames prog where
  resolved := stepTurn_hostInput h ▸ hs.resolved
  inv := stepTurn_keeps_inv hs.inv h
  framed := by
    obtain ⟨prog', hp, ⟨-, -, rfl⟩ | ⟨i, hfetch, he⟩⟩ := stepTurn_next h
    · exact hs.framed
    · cases hs.resolved.symm.trans hp
      exact exec_keeps_frames hs.inv hs.framed (fun c hc => fetch_command (hc ▸ hfetch)) he

theorem State.InvWithFrames.afterTurn (hs : s.InvWithFrames prog) : s.afterTurn.InvWithFrames prog where
  resolved := s.afterTurn_hostInput ▸ hs.resolved
  inv := hs.inv.afterTurn
  framed := by
    have hf := hs.framed
    rw [State.afterTurn_eq]
    split <;> exact { hf with }

/-- Settles O60: by the case analysis over the operations; the schedule is not spoken of. -/
theorem everyStepKeepsTheFrames : Obligations.EveryStepKeepsTheFrames := fun _ _ _ hi hf hp h =>
  (kept_of_next stepTurn_keeps_invWithFrames State.InvWithFrames.afterTurn ⟨hp, hi, hf⟩ h).framed

/-- At the start of a run no command is issued and nothing is on the wire. -/
theorem State.FrameInv.of_isStart (h : s.isStart) : s.FrameInv prog := by
  obtain ⟨hready, hphase, -, hstatus, -, -, -, -, -, -, -, -, htrace, hreturns, hhpc, -⟩ := h
  constructor <;> simp [hready, hphase, hstatus, htrace, hreturns, hhpc, frameScan, updatesOf, framesDue]

/-- What holds at the start of a program's runs, and is kept by every turn and by the schedule moving on, holds in every
state of them: the program is fixed along a run. -/
theorem Reachable.programInvariant {P : State → Prop}
    (hstart : ∀ {s}, s.isStart → resolveInput s.hostInput = .ok prog → P s)
    (hturn : ∀ {turn s t}, P s → stepTurn turn s = .next t → P t) (hsched : ∀ {s}, P s → P s.afterTurn)
    (hr : Reachable s) (hp : resolveInput s.hostInput = .ok prog) : P s :=
  hr.invariant (P := fun s => resolveInput s.hostInput = .ok prog → P s) hstart
    (fun hs h hp => hturn (hs (stepTurn_hostInput h ▸ hp)) h)
    (fun hs hp => hsched (hs (State.afterTurn_hostInput _ ▸ hp))) hp

theorem Reachable.invWithFrames (hr : Reachable s) (hp : resolveInput s.hostInput = .ok prog) : s.InvWithFrames prog :=
  hr.programInvariant (fun h hp => ⟨hp, .of_isStart h, .of_isStart h⟩) stepTurn_keeps_invWithFrames
    State.InvWithFrames.afterTurn hp

/-- Settles O46: what the frame law rests on is kept along a run. -/
theorem framesOnTheWireInEveryRun : Obligations.FramesOnTheWireInEveryRun :=
  fun _ _ hr hp => (hr.invWithFrames hp).framed

/-! ## The end of a run -/

/-- At a final state every command of the program has been issued (R120). -/
theorem State.final.take_hpc (hfinal : s.final) (hp : resolveInput s.hostInput = .ok prog) : prog.take s.hpc = prog := by
  obtain ⟨-, -, ⟨prog', hp', hhpc⟩, -⟩ := hfinal
  cases hp.symm.trans hp'
  rw [hhpc, List.take_length]

/-- At a final state TX_DONE is set, if INIT ever ran (R122). -/
theorem State.Inv.not_armed_of_final (hi : s.Inv) (hfinal : s.final) : (s.ready && !s.txDone) = false := by
  obtain ⟨-, -, -, -, ha, hx⟩ := hfinal
  cases hready : s.ready with
  | false => rfl
  | true => rw [(hi.txDone hready).2 ⟨ha, hx⟩]; rfl

/-- Settles O47: at a final state no call is in progress and no frame is open, and all of the program has been issued. -/
theorem finalFramesAreTheCallsThatReturnedOk : Obligations.FinalFramesAreTheCallsThatReturnedOk := by
  intro s prog hr hp hfinal
  obtain ⟨-, hi, hf⟩ := hr.invWithFrames hp
  have htake := hfinal.take_hpc hp
  have hclosed : (frameScan s.trace).isOpen = false := hf.isOpen.trans (hi.not_armed_of_final hfinal)
  obtain ⟨-, -, -, hphase, -⟩ := hfinal
  have hstatus : s.status = none := hi.statusAtReturn.2 (by simp [hphase])
  have hcount := hf.counted
  have hframes := hf.frames
  rw [htake] at hcount hframes
  refine ⟨hclosed, ?_, ?_⟩
  · simpa [hphase] using hcount.symm
  · simpa [hclosed, hstatus] using hframes

end Sys2Proof.Machine
end

section
/-! The observation of a run (70_reset_and_hazards.md R120; 95_test_vectors.md section 3): the statuses returned and the
wire's events without ticks are the program's own. What is still due in a state makes both an invariant. -/

namespace Sys2Proof.Machine

variable {s t : State} {prog : List HostCmd}

/-! ## What is due, and what is left of it -/

/-- What is still to come on the wire of the frame being sent: its bytes from DMA_IDX on, and IRQ_COMPLETION's Disable. -/
def State.frameLeft (s : State) : List WireEvent :=
  if s.ready && !s.txDone then ((s.bufBytes s.dmaLen).drop s.dmaIdx).map WireEvent.byte ++ [.disable] else []

/-- What is still to come of a call's wire events, by the controller's phase: FG_PREPARE's Disable comes first, and after
FG_ARM's Enable the rest is the frame being sent. -/
def Phase.wireLeft (call : List WireEvent) : Phase → List WireEvent
  | .nocall => []
  | .check => call
  | .drain => call
  | .prepare => call
  | .encode => call.tail
  | .gapwait => call.tail
  | .arm => call.tail
  | .return => []

/-- What is still to come on the wire of the call in progress. -/
def State.callLeft (s : State) : List WireEvent :=
  s.phase.wireLeft ((s.cur.map (callWire s.params.maxPixels)).getD [])

/-- The observation in any state of a run: the statuses so far are the first ones due, and the wire's events so far, with
what is left of the frame being sent and of the call in progress, are those due for the commands issued. -/
structure State.ObsInv (s : State) (prog : List HostCmd) : Prop where
  statuses : (s.returns ++ s.status.toList) <+: (updatesOf (prog.take s.hpc)).map (statusDue s.params.maxPixels)
  wire : withoutTicks s.trace ++ (s.frameLeft ++ s.callLeft) = wireDue s.params.maxPixels (prog.take s.hpc)

theorem State.frameLeft_of_txDone (h : s.txDone = true) : s.frameLeft = [] := by
  simp [State.frameLeft, h]

theorem State.frameLeft_of_not_ready (h : s.ready = false) : s.frameLeft = [] := by
  simp [State.frameLeft, h]

theorem State.frameLeft_of_open (hr : s.ready = true) (hx : s.txDone = false) :
    s.frameLeft = ((s.bufBytes s.dmaLen).drop s.dmaIdx).map WireEvent.byte ++ [.disable] := by
  simp [State.frameLeft, hr, hx]

@[simp] theorem withoutTicks_concat_tick (trace : List WireEvent) :
    withoutTicks (trace ++ [.tick]) = withoutTicks trace := by
  simp [withoutTicks]

theorem withoutTicks_concat {e : WireEvent} (trace : List WireEvent) (he : e ≠ .tick) :
    withoutTicks (trace ++ [e]) = withoutTicks trace ++ [e] := by
  simp [withoutTicks, he]

/-- The wire events due for the commands issued, once the next one is issued too. -/
theorem wireDue_take_succ {maxPixels n : Nat} {c : HostCmd} (h : prog[n]? = some c) :
    wireDue maxPixels (prog.take (n + 1)) = wireDue maxPixels (prog.take n) ++ wireDue maxPixels [c] := by
  rw [List.take_add_one, h, wireDue, List.flatMap_append]
  rfl

theorem State.callLeft_eq {p : Phase} {c : Operands} (hp : s.phase = p) (hc : s.cur = some c) :
    s.callLeft = p.wireLeft (callWire s.params.maxPixels c) := by
  rw [State.callLeft, hp, hc]
  rfl

/-- With no call in progress nothing is left of one. -/
theorem State.callLeft_of_nocall (hp : s.phase = .nocall) : s.callLeft = [] := by
  rw [State.callLeft, hp]
  rfl

/-- Between calls, with no frame being sent, nothing is left. -/
theorem State.nothing_left (hx : s.txDone = true) (hp : s.phase = .nocall) : s.frameLeft ++ s.callLeft = [] := by
  rw [State.frameLeft_of_txDone hx, State.callLeft_of_nocall hp, List.append_nil]

/-- What a step emits is taken from what was left. -/
theorem State.ObsInv.next {emitted left call : List WireEvent} (ho : s.ObsInv prog)
    (hstatuses : (t.returns ++ t.status.toList) <+: (updatesOf (prog.take s.hpc)).map (statusDue s.params.maxPixels))
    (hhpc : t.hpc = s.hpc) (hparams : t.params = s.params)
    (htrace : withoutTicks t.trace = withoutTicks s.trace ++ emitted) (hleft : t.frameLeft = left)
    (hcall : t.callLeft = call) (hbalance : s.frameLeft ++ s.callLeft = emitted ++ (left ++ call)) : t.ObsInv prog where
  statuses := by rwa [hhpc, hparams]
  wire := by rw [hhpc, hparams, htrace, hleft, hcall, List.append_assoc, ← hbalance, ho.wire]

/-! ## The status due for a call -/

theorem statusDue_of_invalid {maxPixels : Nat} {c : Operands} (h : c.invalid = true) :
    statusDue maxPixels c = .invalidArgument := if_pos h

theorem statusDue_of_tooMany {c : Operands} (h : c.invalid = false) (hmany : c.tooMany s = true) :
    statusDue s.params.maxPixels c = .capacityExceeded := by
  rw [Operands.tooMany, decide_eq_true_eq] at hmany
  simp [statusDue, h, hmany]

/-- Admitted operands are those whose status is OK (R85). -/
theorem Operands.admitted.statusDue_eq {c : Operands} (h : c.admitted s) : statusDue s.params.maxPixels c = .ok := by
  obtain ⟨cs, hcs, hn, hmin, hmax⟩ := h
  have hvalid : c.invalid = false := by
    simp only [Operands.invalid, hcs, Option.isNone_some, Bool.false_or, decide_eq_false_iff_not]
    omega
  have hfits : ¬ (s.params.maxPixels : Int) < c.n := by omega
  simp [statusDue, hvalid, hfits]

/-- A call that fails puts nothing on the wire. -/
theorem callWire_of_rejected {maxPixels : Nat} {c : Operands} (h : statusDue maxPixels c ≠ .ok) :
    callWire maxPixels c = [] := if_neg h

/-- From FG_PREPARE to FG_ARM the call's status is OK, and its wire events are the two writes of LINE, the encoding of its
colours and the Disable after it. -/
theorem State.Inv.callWire_of_beforeArm (hi : s.Inv) (hp : s.phase.beforeArm) :
    ∃ cs count, s.cur = some ⟨some cs, count⟩ ∧ (sint32 count).toNat = cs.length ∧
      statusDue s.params.maxPixels ⟨some cs, count⟩ = .ok ∧
      callWire s.params.maxPixels ⟨some cs, count⟩ =
        .disable :: .enable :: ((encodeColors cs cs.length).map WireEvent.byte ++ [.disable]) := by
  obtain ⟨cs, count, hc, hlen, -⟩ := hi.admitted_of_beforeArm hp
  have hn : (sint32 count).toNat = cs.length := by omega
  have hok := (hi.curAdmitted _ hc (.inr (.inl hp))).statusDue_eq
  refine ⟨cs, count, hc, hn, hok, ?_⟩
  simp [callWire, hok, Operands.n, hn]

/-- The status due for the call in progress comes after those returned. -/
theorem State.ObsInv.statuses_inCall (ho : s.ObsInv prog) (hf : s.FrameInv prog) (hp : s.phase ≠ .nocall)
    {c : Operands} (hc : s.cur = some c) :
    (s.returns ++ [statusDue s.params.maxPixels c]) <+:
      (updatesOf (prog.take s.hpc)).map (statusDue s.params.maxPixels) := by
  obtain ⟨us, hus, hlen⟩ := hf.updatesOf_inCall hp hc
  have hreturned := (List.prefix_append s.returns s.status.toList).trans ho.statuses
  rw [hus, List.map_append] at hreturned ⊢
  have hprefix : s.returns <+: us.map (statusDue s.params.maxPixels) :=
    List.prefix_of_prefix_length_le hreturned (List.prefix_append _ _) (by simp [hlen])
  rw [hprefix.eq_of_length (by simp [hlen])]
  exact List.prefix_rfl

/-! ## Each operation -/

theorem execInit_keeps_obs (ho : s.ObsInv prog) (hnext : prog[s.hpc]? = some .init)
    (h : execInit s = .next t) : t.ObsInv prog := by
  obtain ⟨-, ⟨-, -, rfl⟩ | ⟨hp, hr, rfl⟩ | rfl⟩ := execInit_next h
  · exact { ho with }
  · have hcalls : updatesOf (prog.take (s.hpc + 1)) = updatesOf (prog.take s.hpc) :=
      (updatesOf_take_succ hnext).trans (List.append_nil _)
    have hdue : wireDue s.params.maxPixels (prog.take (s.hpc + 1)) =
        wireDue s.params.maxPixels (prog.take s.hpc) ++ [.disable] :=
      wireDue_take_succ hnext
    have hwire := ho.wire
    rw [State.frameLeft_of_not_ready hr, State.callLeft_of_nocall hp, List.append_nil] at hwire
    refine ⟨by simpa [hcalls] using ho.statuses, ?_⟩
    rw [State.nothing_left]
    · change withoutTicks (s.trace ++ [.disable]) ++ [] = wireDue s.params.maxPixels (prog.take (s.hpc + 1))
      rw [hdue, ← hwire, List.append_nil, List.append_nil]
      exact withoutTicks_concat _ nofun
    · rfl
    · exact hp
  · exact ho

theorem execUpdate_keeps_obs (ho : s.ObsInv prog) {colors : Option (List Color)} {count : Word}
    (hnext : prog[s.hpc]? = some (.update colors count)) (h : execUpdate colors count s = .next t) : t.ObsInv prog := by
  obtain ⟨-, ⟨hp, -, rfl⟩ | ⟨-, -, rfl⟩ | rfl⟩ := execUpdate_next h
  · have hcalls : updatesOf (prog.take (s.hpc + 1)) = updatesOf (prog.take s.hpc) ++ [⟨colors, count⟩] :=
      updatesOf_take_succ hnext
    have hdue : wireDue s.params.maxPixels (prog.take (s.hpc + 1)) =
        wireDue s.params.maxPixels (prog.take s.hpc) ++ callWire s.params.maxPixels ⟨colors, count⟩ :=
      (wireDue_take_succ hnext).trans (congrArg _ (List.append_nil _))
    refine ⟨?_, ?_⟩
    · rw [hcalls, List.map_append]
      exact ho.statuses.trans (List.prefix_append _ _)
    · have hwire := ho.wire
      rw [State.callLeft_of_nocall hp, List.append_nil] at hwire
      rw [hdue, ← hwire, List.append_assoc]
      rfl
  · exact { ho with }
  · exact ho

/-- FG_CHECK's rejection gives the call the status due, and nothing of it is left for the wire. -/
theorem State.ObsInv.reject (ho : s.ObsInv prog) (hf : s.FrameInv prog) (hp : s.phase = .check) {c : Operands}
    (hc : s.cur = some c) {st : Status} (hst : statusDue s.params.maxPixels c = st) (hne : st ≠ .ok) :
    ({ s with status := some st, phase := .return } : State).ObsInv prog := by
  have hstatuses := ho.statuses_inCall hf (by simp [hp]) hc
  rw [hst] at hstatuses
  have hleft : s.callLeft = [] := by
    rw [State.callLeft_eq hp hc, callWire_of_rejected (hst ▸ hne)]
    rfl
  have hwire := ho.wire
  rw [hleft] at hwire
  exact ⟨hstatuses, hwire⟩

theorem execFgCheck_keeps_obs (ho : s.ObsInv prog) (hf : s.FrameInv prog) (h : execFgCheck s = .next t) :
    t.ObsInv prog := by
  obtain ⟨-, ⟨c, hp, hc, ⟨hv, rfl⟩ | ⟨hv, hmany, rfl⟩ | ⟨-, -, rfl⟩⟩ | rfl⟩ := execFgCheck_next h
  · exact ho.reject hf hp hc (statusDue_of_invalid hv) nofun
  · exact ho.reject hf hp hc (statusDue_of_tooMany hv hmany) nofun
  · have hwire := ho.wire
    rw [State.callLeft, hp] at hwire
    exact ⟨ho.statuses, hwire⟩
  · exact ho

theorem execFgDrain_keeps_obs (ho : s.ObsInv prog) (h : execFgDrain s = .next t) : t.ObsInv prog := by
  obtain ⟨-, ⟨hp, -, rfl⟩ | rfl⟩ := execFgDrain_next h
  · have hwire := ho.wire
    rw [State.callLeft, hp] at hwire
    exact ⟨ho.statuses, hwire⟩
  · exact ho

/-- FG_PREPARE's Disable is the first of the call's wire events. -/
theorem execFgPrepare_keeps_obs (hi : s.Inv) (ho : s.ObsInv prog) (h : execFgPrepare s = .next t) : t.ObsInv prog := by
  obtain ⟨-, ⟨hp, rfl⟩ | rfl⟩ := execFgPrepare_next h
  · obtain ⟨hx, -⟩ := hi.idle_of_beforeArm (.inl hp)
    obtain ⟨cs, count, hc, -, -, hcall⟩ := hi.callWire_of_beforeArm (.inl hp)
    refine ho.next (emitted := [.disable]) (call := (callWire s.params.maxPixels ⟨some cs, count⟩).tail) ho.statuses
      rfl rfl (withoutTicks_concat _ nofun) (State.frameLeft_of_txDone hx) (State.callLeft_eq rfl hc) ?_
    rw [State.frameLeft_of_txDone hx, State.callLeft_eq hp hc, hcall]
    rfl
  · exact ho

theorem execFgEncode_keeps_obs (hi : s.Inv) (ho : s.ObsInv prog) (h : execFgEncode s = .next t) : t.ObsInv prog := by
  obtain ⟨-, ⟨cs, count, hp, -, -, ⟨f, -, rfl⟩ | ⟨u, hu, rfl⟩⟩ | rfl⟩ := execFgEncode_next h
  · exact { ho with }
  · obtain ⟨m, rfl⟩ : ∃ m, u = s.withBuf m := ⟨u.buf, memWriteAll_frame hu⟩
    obtain ⟨hx, -⟩ := hi.idle_of_beforeArm (.inr (.inl hp))
    obtain ⟨c, hc⟩ := hi.cur_of_inCall (by simp [hp])
    refine ho.next (emitted := []) (call := (callWire s.params.maxPixels c).tail) ho.statuses rfl rfl
      (List.append_nil _).symm (State.frameLeft_of_txDone hx) (State.callLeft_eq rfl hc) ?_
    rw [State.frameLeft_of_txDone hx, State.callLeft_eq hp hc]
    rfl
  · exact ho

theorem execFgGapwait_keeps_obs (ho : s.ObsInv prog) (h : execFgGapwait s = .next t) : t.ObsInv prog := by
  obtain ⟨-, ⟨hp, -, rfl⟩ | rfl⟩ := execFgGapwait_next h
  · have hwire := ho.wire
    rw [State.callLeft, hp] at hwire
    exact ⟨ho.statuses, hwire⟩
  · exact ho

/-- FG_ARM gives the call the status OK, emits its Enable, and leaves the rest of it to the frame being sent. -/
theorem execFgArm_keeps_obs (hi : s.Inv) (ho : s.ObsInv prog) (hf : s.FrameInv prog) (h : execFgArm s = .next t) :
    t.ObsInv prog := by
  obtain ⟨-, ⟨c, hp, hc, -, rfl⟩ | rfl⟩ := execFgArm_next h
  · have hbefore : s.phase.beforeArm := .inr (.inr (.inr hp))
    have hincall : s.phase ≠ .nocall := by simp [hp]
    obtain ⟨hx, -⟩ := hi.idle_of_beforeArm hbefore
    obtain ⟨cs, count, hc', hn, hok, hcall⟩ := hi.callWire_of_beforeArm hbefore
    cases hc.symm.trans hc'
    have hholds : s.bufBytes (transferLength cs.length) = encodeColors cs cs.length :=
      hi.encoded (.inr hp) cs count hc
    have hstatuses := ho.statuses_inCall hf hincall hc
    rw [hok] at hstatuses
    refine ho.next (emitted := [.enable]) (call := [])
      (left := ((s.bufBytes (transferLength (sint32 count).toNat)).drop 0).map WireEvent.byte ++ [.disable]) hstatuses
      rfl rfl (withoutTicks_concat _ nofun) (State.frameLeft_of_open (hi.ready_of_inCall hincall) rfl)
      (State.callLeft_eq rfl hc) ?_
    rw [hn, hholds]
    rw [State.frameLeft_of_txDone hx, State.callLeft_eq hp hc, hcall, List.append_nil]
    rfl
  · exact ho

theorem execFgReturn_keeps_obs (ho : s.ObsInv prog) {data : Byte} (h : execFgReturn data s = .next t) :
    t.ObsInv prog := by
  obtain ⟨-, ⟨st, hp, hst, rfl⟩ | rfl⟩ := execFgReturn_next (data := data) h
  · have hstatuses := ho.statuses
    have hwire := ho.wire
    rw [hst, Option.toList_some] at hstatuses
    rw [State.callLeft, hp] at hwire
    exact ⟨by simpa using hstatuses, hwire⟩
  · exact ho

/-- What is left of a list of bytes read from the buffer, the next one apart. -/
theorem State.bufBytes_drop {i n : Nat} (h : i < n) :
    (s.bufBytes n).drop i = s.bufByte i :: (s.bufBytes n).drop (i + 1) := by
  rw [List.drop_eq_getElem_cons (by simpa [State.bufBytes] using h)]
  simp [State.bufBytes]

/-- DMA_SEND's byte is the first one left of the frame. -/
theorem execDmaSend_keeps_obs (hi : s.Inv) (ho : s.ObsInv prog) {data : Byte} (h : execDmaSend data s = .next t) :
    t.ObsInv prog := by
  obtain ⟨-, ⟨ha, hidx, ⟨-, rfl⟩ | ⟨-, -, rfl⟩ | ⟨-, -, rfl⟩⟩ | rfl⟩ := execDmaSend_next (data := data) h
  · exact { ho with }
  · exact { ho with }
  · have hready := hi.ready_of_dmaActive ha
    have htx := hi.txDone_of_dmaActive ha
    refine ho.next (emitted := [.byte (s.bufByte s.dmaIdx)]) (call := s.callLeft) ho.statuses rfl rfl
      (withoutTicks_concat _ nofun) (State.frameLeft_of_open hready htx) rfl ?_
    rw [State.frameLeft_of_open hready htx, State.bufBytes_drop hidx]
    rfl
  · exact ho

theorem execDmaComplete_keeps_obs (ho : s.ObsInv prog) (h : execDmaComplete s = .next t) : t.ObsInv prog := by
  obtain ⟨-, ⟨-, -, rfl⟩ | rfl⟩ := execDmaComplete_next h
  · exact { ho with }
  · exact ho

/-- IRQ_COMPLETION's Disable is the last that is left of the frame, once every byte is sent. -/
theorem execIrqCompletion_keeps_obs (hi : s.Inv) (ho : s.ObsInv prog) (h : execIrqCompletion s = .next t) :
    t.ObsInv prog := by
  obtain ⟨-, ⟨hx, -, rfl⟩ | rfl⟩ := execIrqCompletion_next h
  · obtain ⟨hready, htx⟩ := hi.open_of_xferDone hx
    have hsent : (s.bufBytes s.dmaLen).drop s.dmaIdx = [] := by
      rw [hi.allSent hx, List.drop_eq_nil_iff]
      simp [State.bufBytes]
    refine ho.next (emitted := [.disable]) (call := s.callLeft) ho.statuses rfl rfl (withoutTicks_concat _ nofun)
      (State.frameLeft_of_txDone rfl) rfl ?_
    rw [State.frameLeft_of_open hready htx, hsent]
    rfl
  · exact ho

theorem execTimerTick_keeps_obs (ho : s.ObsInv prog) (h : execTimerTick s = .next t) : t.ObsInv prog := by
  obtain ⟨-, ⟨-, rfl⟩ | rfl⟩ := execTimerTick_next h
  · refine ⟨ho.statuses, ?_⟩
    rw [State.emit_trace, withoutTicks_concat_tick]
    exact ho.wire
  · exact ho

theorem exec_keeps_obs (hi : s.Inv) (hf : s.FrameInv prog) (ho : s.ObsInv prog) {i : Instr}
    (hnext : ∀ c : HostCmd, i = c.toInstr → prog[s.hpc]? = some c) (h : exec i s = .next t) : t.ObsInv prog := by
  cases i with
  | init => exact execInit_keeps_obs ho (hnext .init rfl) h
  | update colors count => exact execUpdate_keeps_obs ho (hnext (.update colors count) rfl) h
  | fgCheck => exact execFgCheck_keeps_obs ho hf h
  | fgDrain => exact execFgDrain_keeps_obs ho h
  | fgPrepare => exact execFgPrepare_keeps_obs hi ho h
  | fgEncode => exact execFgEncode_keeps_obs hi ho h
  | fgGapwait => exact execFgGapwait_keeps_obs ho h
  | fgArm => exact execFgArm_keeps_obs hi ho hf h
  | fgReturn data => exact execFgReturn_keeps_obs ho (data := data) h
  | dmaSend data => exact execDmaSend_keeps_obs hi ho (data := data) h
  | dmaComplete => exact execDmaComplete_keeps_obs ho h
  | irqCompletion => exact execIrqCompletion_keeps_obs hi ho h
  | timerTick => exact execTimerTick_keeps_obs ho h

/-! ## Runs -/

/-- The invariants with what the frame law rests on and what the observation is, of the program that the input resolves
to. -/
structure State.InvWithObs (prog : List HostCmd) (s : State) : Prop where
  base : s.InvWithFrames prog
  observed : s.ObsInv prog

theorem stepTurn_keeps_invWithObs {turn : Turn} (hs : s.InvWithObs prog) (h : stepTurn turn s = .next t) :
    t.InvWithObs prog := by
  obtain ⟨hbase, ho⟩ := hs
  refine ⟨stepTurn_keeps_invWithFrames hbase h, ?_⟩
  obtain ⟨prog', hp, ⟨-, -, rfl⟩ | ⟨i, hfetch, he⟩⟩ := stepTurn_next h
  · exact ho
  · cases hbase.resolved.symm.trans hp
    exact exec_keeps_obs hbase.inv hbase.framed ho (fun c hc => fetch_command (hc ▸ hfetch)) he

theorem State.InvWithObs.afterTurn (hs : s.InvWithObs prog) : s.afterTurn.InvWithObs prog := by
  obtain ⟨hbase, ho⟩ := hs
  refine ⟨hbase.afterTurn, ?_⟩
  rw [State.afterTurn_eq]
  split <;> exact { ho with }

theorem State.ObsInv.of_isStart (h : s.isStart) : s.ObsInv prog := by
  obtain ⟨hready, hphase, -, hstatus, -, -, -, -, -, -, -, -, htrace, hreturns, hhpc, -⟩ := h
  refine ⟨by simp [hstatus, hreturns], ?_⟩
  simp [State.frameLeft_of_not_ready hready, State.callLeft, hphase, Phase.wireLeft, htrace, withoutTicks, hhpc, wireDue]

theorem Reachable.obsInv (hr : Reachable s) (hp : resolveInput s.hostInput = .ok prog) : s.ObsInv prog := by
  obtain ⟨-, ho⟩ := hr.programInvariant (P := State.InvWithObs prog)
    (fun h hp => ⟨⟨hp, .of_isStart h, .of_isStart h⟩, .of_isStart h⟩) stepTurn_keeps_invWithObs
    State.InvWithObs.afterTurn hp
  exact ho

/-- Settles O48: at a final state nothing is left of a frame or a call, and as many statuses were returned as are due. -/
theorem finalObservationIsTheProgramsOwn : Obligations.FinalObservationIsTheProgramsOwn := by
  intro s prog hr hp hfinal
  obtain ⟨hstatuses, hwire⟩ := hr.obsInv hp
  have hi := hr.inv
  obtain ⟨-, hcount, -⟩ := finalFramesAreTheCallsThatReturnedOk s prog hr hp hfinal
  have hclosed := hi.not_armed_of_final hfinal
  have htake := hfinal.take_hpc hp
  obtain ⟨-, -, -, hphase, -⟩ := hfinal
  have hstatus : s.status = none := hi.statusAtReturn.2 (by simp [hphase])
  rw [htake] at hstatuses hwire
  rw [hstatus, Option.toList_none, List.append_nil] at hstatuses
  refine ⟨hstatuses.eq_of_length (by simp [hcount]), ?_⟩
  simpa [State.frameLeft, hclosed, State.callLeft, hphase, Phase.wireLeft] using hwire

end Sys2Proof.Machine
end

section
/-! Waiting and ending (70_reset_and_hazards.md): the drain's hold and its end (R128, R132), final states (R120), that no
run is stuck (U25), and a fair run without an end (R119, R131). -/

namespace Sys2Proof.Machine

variable {s t : State} {prog : List HostCmd}

/-! ## Turns that hold -/

/-- A step whose guard fails leaves the state as it was (R12). -/
theorem eq_of_exec_held {i : Instr} (h : exec i s = .next t) (hg : guardHolds i s = false) : t = s := by
  have hheld := disabledStepsHold i s (live_of_exec_next h) hg
  cases h.symm.trans hheld
  rfl

/-- While a call is in progress HOST's turn holds: a command's guard is that there is no call (R83, R84). -/
theorem eq_of_stepTurn_host_inCall (hp : s.phase ≠ .nocall) (h : stepTurn .host s = .next t) : t = s := by
  obtain ⟨prog, -, ⟨-, -, rfl⟩ | ⟨i, hfetch, he⟩⟩ := stepTurn_next h
  · rfl
  · obtain ⟨c, -, rfl⟩ := Option.map_eq_some_iff.1 hfetch
    cases c <;> exact eq_of_exec_held he (by simp [HostCmd.toInstr, guardHolds, hp])

/-- An internal step's turn that answers a next state ran that step. -/
theorem exec_of_stepTurn_internal {e : Event} (h : stepTurn (.internal e) s = .next t) : exec e.toInstr s = .next t := by
  obtain ⟨prog, hp, -⟩ := stepTurn_next h
  exact stepTurn_internal e hp ▸ h

/-! ## The drain's hold -/

/-- Settles O49: in DRAIN with TX_DONE clear only the engine's steps, IRQ_COMPLETION and TIMER_TICK are not held; of what
the law speaks of, the engine writes nothing, the handler TX_DONE, and the timer TIMER. -/
theorem drainHoldsUntilTheCompletion : Obligations.DrainHoldsUntilTheCompletion := by
  intro s t turn hp hx h
  cases turn with
  | host =>
    obtain rfl := eq_of_stepTurn_host_inCall (by simp [hp]) h
    simp [hp, hx]
  | internal e =>
    have he := exec_of_stepTurn_internal h
    cases e with
    | fgCheck | fgDrain | fgPrepare | fgEncode | fgGapwait | fgArm | fgReturn =>
      obtain rfl := eq_of_exec_held he (by simp [Event.toInstr, guardHolds, hp, hx])
      simp [hp, hx]
    | dmaSend | dmaComplete =>
      rw [exec_eq_writtenBy he]
      simp [Event.toInstr, State.writtenBy, hp, hx]
    | irqCompletion =>
      obtain ⟨-, ⟨hxfer, -, rfl⟩ | rfl⟩ := execIrqCompletion_next he
      · simp [hp, hxfer]
      · simp [hp, hx]
    | timerTick =>
      cases hr : s.ready with
      | true =>
        cases he.symm.trans (timerTickCounts s (live_of_exec_next he) hr)
        simp [hp, hx]
      | false =>
        obtain rfl := eq_of_exec_held he hr
        simp [hp, hx]

/-! ## Final states -/

/-- Settles O55: at a final state HOST has no command left and no guard holds but TIMER_TICK's. -/
theorem finalStatesStayFinal : Obligations.FinalStatesStayFinal := by
  intro s t turn hfinal h
  have hs := hfinal
  obtain ⟨hfault, hrefused, ⟨prog, hprog, hhpc⟩, hp, ha, hx⟩ := hs
  have hheld : t = s → t.final ∧ t.returns = s.returns ∧ (t.trace = s.trace ∨ t.trace = s.trace ++ [.tick]) := by
    rintro rfl
    exact ⟨hfinal, rfl, .inl rfl⟩
  cases turn with
  | host =>
    refine hheld ?_
    cases h.symm.trans (stepTurn_host_done hprog hhpc.ge ⟨hfault, hrefused⟩)
    rfl
  | internal e =>
    have he := exec_of_stepTurn_internal h
    cases e with
    | timerTick =>
      obtain ⟨-, ⟨-, rfl⟩ | rfl⟩ := execTimerTick_next he
      · exact ⟨hfinal, rfl, .inr rfl⟩
      · exact hheld rfl
    | fgCheck | fgDrain | fgPrepare | fgEncode | fgGapwait | fgArm | fgReturn | dmaSend | dmaComplete | irqCompletion =>
      exact hheld (eq_of_exec_held he (by simp [Event.toInstr, guardHolds, hp, ha, hx]))

/-! ## No run is stuck -/

/-- An internal step is enabled where its guard holds (R13). -/
theorem State.live.enables_internal (hl : s.live) {i : Instr} (ha : i.agent ≠ .host) (hg : guardHolds i s = true) :
    s.enables i = true := by
  simp [State.enables, hl.1, hl.2, hg, ha]

/-- Between calls the host's next command is enabled (R29). -/
theorem State.live.enables_command (hl : s.live) {c : HostCmd} (hprog : resolveInput s.hostInput = .ok prog)
    (hc : prog[s.hpc]? = some c) (hp : s.phase = .nocall) : s.enables c.toInstr = true := by
  have hissues : s.issues = some c.toInstr := by simp [State.issues, hprog, fetch, hc]
  have hg : guardHolds c.toInstr s = true := by cases c <;> simp [HostCmd.toInstr, guardHolds, hp]
  simp [State.enables, hl.1, hl.2, hg, hissues]

/-- Some step other than TIMER_TICK is enabled. -/
def State.canAct (s : State) : Prop := ∃ i : Instr, i ≠ .timerTick ∧ s.enables i = true

theorem State.live.canAct (hl : s.live) {i : Instr} (ha : i.agent ≠ .host) (hne : i ≠ .timerTick)
    (hg : guardHolds i s = true) : s.canAct := ⟨i, hne, hl.enables_internal ha hg⟩

/-- While a transfer is in flight the engine can act: it has a byte to move, or has moved the last one. -/
theorem State.Inv.canAct_of_dmaActive (hi : s.Inv) (hl : s.live) (ha : s.dmaActive = true) : s.canAct := by
  obtain ⟨hidx, -⟩ := hi.dmaBounds
  rcases Nat.lt_or_eq_of_le hidx with hlt | heq
  · exact hl.canAct (i := .dmaSend 0) nofun nofun (by simp [guardHolds, ha, hlt])
  · exact hl.canAct (i := .dmaComplete) nofun nofun (by simp [guardHolds, ha, heq])

/-- While a completion is pending the handler can act: it has been registered (R24). -/
theorem State.Inv.canAct_of_xferDone (hi : s.Inv) (hl : s.live) (hx : s.xferDone = true) : s.canAct := by
  obtain ⟨hready, -⟩ := hi.open_of_xferDone hx
  exact hl.canAct (i := .irqCompletion) nofun nofun (by simp [guardHolds, hx, hi.registered hready])

/-- In a call some step is enabled, outside the gap wait: the controller's, or in a drain with TX_DONE clear the engine's
or the handler's (R94, R122). -/
theorem State.Inv.canAct_of_inCall (hi : s.Inv) (hl : s.live) (hp : s.phase ≠ .nocall) (hgap : s.phase ≠ .gapwait) :
    s.canAct := by
  match hphase : s.phase with
  | .nocall => exact absurd hphase hp
  | .gapwait => exact absurd hphase hgap
  | .check => exact hl.canAct (i := .fgCheck) nofun nofun (by simp [guardHolds, hphase])
  | .prepare => exact hl.canAct (i := .fgPrepare) nofun nofun (by simp [guardHolds, hphase])
  | .encode => exact hl.canAct (i := .fgEncode) nofun nofun (by simp [guardHolds, hphase])
  | .arm => exact hl.canAct (i := .fgArm) nofun nofun (by simp [guardHolds, hphase])
  | .return => exact hl.canAct (i := .fgReturn 0) nofun nofun (by simp [guardHolds, hphase])
  | .drain =>
    by_cases hx : s.txDone = true
    · exact hl.canAct (i := .fgDrain) nofun nofun (by simp [guardHolds, hphase, hx])
    · rw [hi.txDone (hi.ready_of_inCall hp), not_and_or, Bool.not_eq_false, Bool.not_eq_false] at hx
      exact hx.elim (hi.canAct_of_dmaActive hl) (hi.canAct_of_xferDone hl)

/-- Between calls, short of a final state, some step is enabled: the host's next command, or after the last one the
engine's or the handler's. -/
theorem State.Inv.canAct_of_nocall (hi : s.Inv) (hl : s.live) (hprog : resolveInput s.hostInput = .ok prog)
    (hp : s.phase = .nocall) (hfinal : ¬ s.final) : s.canAct := by
  rcases Nat.lt_or_eq_of_le (hi.hpcBound prog hprog) with hlt | heq
  · refine ⟨prog[s.hpc].toInstr, ?_, hl.enables_command hprog (List.getElem?_eq_getElem hlt) hp⟩
    cases prog[s.hpc] <;> nofun
  · by_cases ha : s.dmaActive = true
    · exact hi.canAct_of_dmaActive hl ha
    · by_cases hx : s.xferDone = true
      · exact hi.canAct_of_xferDone hl hx
      · exact absurd ⟨hl.1, hl.2, ⟨prog, hprog, heq⟩, hp, Bool.eq_false_iff.2 ha, Bool.eq_false_iff.2 hx⟩ hfinal

/-- Settles O56: in or between calls some step other than TIMER_TICK is enabled, but at a final state or in the gap wait. -/
theorem noRunIsStuck : Obligations.NoRunIsStuck := by
  rintro s prog hr hprog ⟨hl, hfinal, htick, hgap⟩
  have hi := hr.inv
  have hact : s.canAct := by
    by_cases hp : s.phase = .nocall
    · exact hi.canAct_of_nocall hl hprog hp hfinal
    · exact hi.canAct_of_inCall hl hp fun hg => hgap ⟨hi.ready_of_inCall hp, hg⟩
  obtain ⟨i, hne, he⟩ := hact
  exact hne (htick i he)

/-! ## The end of the drain's hold -/

theorem runTurns_cons {turn : Turn} (turns : List Turn) (h : stepTurn turn s = .next t) :
    runTurns (turn :: turns) s = runTurns turns t := by
  rw [runTurns, h]

theorem runTurns_replicate_held {turn : Turn} (k : Nat) (h : stepTurn turn s = .next s) :
    runTurns (List.replicate k turn) s = .next s := by
  induction k with
  | zero => rfl
  | succ k ih => rw [List.replicate_succ, runTurns_cons _ h, ih]

theorem runTurns_keeps_inv {turns : List Turn} (hi : s.Inv) (h : runTurns turns s = .next t) : t.Inv := by
  induction turns generalizing s with
  | nil => cases h; exact hi
  | cons turn turns ih =>
    cases hs : stepTurn turn s with
    | next u => exact ih (stepTurn_keeps_inv hi hs) (runTurns_cons turns hs ▸ h)
    | fault f => simp [runTurns, hs] at h
    | refused r => simp [runTurns, hs] at h

/-- An internal step whose guard fails is a turn that holds. -/
theorem stepTurn_internal_held {e : Event} (hl : s.live) (hprog : resolveInput s.hostInput = .ok prog)
    (hg : guardHolds e.toInstr s = false) : stepTurn (.internal e) s = .next s :=
  (stepTurn_internal e hprog).trans (disabledStepsHold _ s hl hg)

/-- FG_DRAIN ends the hold once TX_DONE is set (R89). -/
theorem runTurns_fgDrain (hl : s.live) (hprog : resolveInput s.hostInput = .ok prog) (hp : s.phase = .drain)
    (hx : s.txDone = true) : ∃ t, runTurns [.internal .fgDrain] s = .next t ∧ t.phase = .prepare :=
  ⟨_, (runTurns_singleton _ s).trans ((stepTurn_internal .fgDrain hprog).trans ((fgDrainWaitsForCompletion s hl hp).1 hx)),
    rfl⟩

/-- The handler sets TX_DONE, where it is not set already (R106). -/
theorem runTurns_irqCompletion_fgDrain (hl : s.live) (hprog : resolveInput s.hostInput = .ok prog)
    (hp : s.phase = .drain) (hirq : s.irqEn = true) (hx : s.xferDone = true ∨ s.txDone = true) :
    ∃ t, runTurns [.internal .irqCompletion, .internal .fgDrain] s = .next t ∧ t.phase = .prepare := by
  by_cases hxfer : s.xferDone = true
  · have hturn : stepTurn (.internal .irqCompletion) s = _ :=
      (stepTurn_internal .irqCompletion hprog).trans (irqCompletionAcknowledges s hl hxfer hirq)
    rw [runTurns_cons _ hturn]
    exact runTurns_fgDrain hl hprog hp rfl
  · have hheld : stepTurn (.internal .irqCompletion) s = .next s :=
      stepTurn_internal_held hl hprog (by simp [Event.toInstr, guardHolds, hxfer])
    rw [runTurns_cons _ hheld]
    exact runTurns_fgDrain hl hprog hp (hx.resolve_left hxfer)

/-- With every byte moved the engine signals its completion (R96). -/
theorem runTurns_dmaComplete_irqCompletion_fgDrain (hl : s.live) (hprog : resolveInput s.hostInput = .ok prog)
    (hp : s.phase = .drain) (hirq : s.irqEn = true) (hsent : s.dmaActive = true → s.dmaIdx = s.dmaLen)
    (hx : s.dmaActive = true ∨ s.xferDone = true ∨ s.txDone = true) :
    ∃ t, runTurns [.internal .dmaComplete, .internal .irqCompletion, .internal .fgDrain] s = .next t ∧
      t.phase = .prepare := by
  by_cases ha : s.dmaActive = true
  · have hturn : stepTurn (.internal .dmaComplete) s = _ :=
      (stepTurn_internal .dmaComplete hprog).trans (dmaCompleteSignals s hl ha (hsent ha))
    rw [runTurns_cons _ hturn]
    exact runTurns_irqCompletion_fgDrain hl hprog hp hirq (.inl rfl)
  · have hheld : stepTurn (.internal .dmaComplete) s = .next s :=
      stepTurn_internal_held hl hprog (by simp [Event.toInstr, guardHolds, ha])
    rw [runTurns_cons _ hheld]
    exact runTurns_irqCompletion_fgDrain hl hprog hp hirq (hx.resolve_left ha)

/-- The engine's remaining turns move every byte of a transfer in flight; with none in flight they hold. -/
theorem State.Inv.runTurns_remaining (hi : s.Inv) (hl : s.live) (hprog : resolveInput s.hostInput = .ok prog)
    (data : Byte) : ∃ idx tr,
      runTurns (List.replicate (s.dmaLen - s.dmaIdx) (.internal (.dmaSend data))) s =
        .next { s with dmaIdx := idx, trace := tr } ∧ (s.dmaActive = true → idx = s.dmaLen) := by
  obtain ⟨hidx, hlen⟩ := hi.dmaBounds
  by_cases ha : s.dmaActive = true
  · obtain ⟨tr, hrun⟩ := runTurns_sends (s.dmaLen - s.dmaIdx) data s hl hprog ha (hi.lineEnabled ha) (by omega) hlen
    exact ⟨_, tr, hrun, fun _ => by omega⟩
  · have hheld : stepTurn (.internal (.dmaSend data)) s = .next s :=
      stepTurn_internal_held hl hprog (by simp [Event.toInstr, guardHolds, ha])
    exact ⟨s.dmaIdx, s.trace, runTurns_replicate_held _ hheld, fun h => absurd h ha⟩

/-- Settles O58: the turns end in PREPARE, where the invariants say that TX_DONE is set and nothing is in flight (R123). -/
theorem drainHoldCanEnd : Obligations.DrainHoldCanEnd := by
  intro s prog data hi hl hready hprog hp
  have hx : s.dmaActive = true ∨ s.xferDone = true ∨ s.txDone = true := by
    by_cases ha : s.dmaActive = true
    · exact .inl ha
    · by_cases hxfer : s.xferDone = true
      · exact .inr (.inl hxfer)
      · exact .inr (.inr ((hi.txDone hready).2 ⟨Bool.eq_false_iff.2 ha, Bool.eq_false_iff.2 hxfer⟩))
  obtain ⟨idx, tr, hsends, hsent⟩ := hi.runTurns_remaining hl hprog data
  obtain ⟨t, hrest, htp⟩ := runTurns_dmaComplete_irqCompletion_fgDrain (s := { s with dmaIdx := idx, trace := tr })
    hl hprog hp (hi.registered hready) hsent hx
  have hrun := (runTurns_append hsends).trans hrest
  exact ⟨t, hrun, htp, (runTurns_keeps_inv hi hrun).idle_of_beforeArm (.inl htp)⟩

/-! ## A fair run without an end -/

/-- One call of one pixel. -/
def wrapProgram : List HostCmd := [.init, .update (some [0]) 1]

/-- The reset state with that program, MAX_PIXELS = 1. -/
def wrapStart : State := { State.reset with params := ⟨1, 0⟩, hostInput := .terms wrapProgram }

/-- After INIT. -/
def wrapUp : State :=
  { wrapStart with
    ready := true, txDone := true, irqEn := true, timer := Config.freeTimer 0, draws := 1, trace := [.disable], hpc := 1 }

/-- In the call, up to FG_PREPARE. -/
def wrapCall (p : Phase) : State := { wrapUp with cur := some ⟨some [0], 1⟩, hpc := 2, phase := p }

/-- After FG_PREPARE: the counter is cleared. -/
def wrapPrepared : State := { wrapCall .encode with timer := 0, trace := [.disable, .disable] }

/-- In the gap wait, after some ticks: the counter has wrapped as often as they are long. -/
def wrapGap (ticks : Nat) : State :=
  { wrapPrepared with
    phase := .gapwait
    buf := (List.range 24).map fun i => (i, Config.pulseZero)
    timer := BitVec.ofNat 32 ticks
    trace := [.disable, .disable] ++ List.replicate ticks .tick }

/-- The run: the call is brought to the gap wait, and from there only the timer takes its turns. -/
def wrapTurn : Nat → Turn
  | 0 => .host
  | 1 => .host
  | 2 => .internal .fgCheck
  | 3 => .internal .fgDrain
  | 4 => .internal .fgPrepare
  | 5 => .internal .fgEncode
  | _ + 6 => .internal .timerTick

def wrapState : Nat → State
  | 0 => wrapStart
  | 1 => wrapUp
  | 2 => wrapCall .check
  | 3 => wrapCall .drain
  | 4 => wrapCall .prepare
  | 5 => wrapPrepared
  | ticks + 6 => wrapGap ticks

theorem wrapGap_resolves (ticks : Nat) : resolveInput (wrapGap ticks).hostInput = .ok wrapProgram := rfl

theorem wrapGap_tick (ticks : Nat) : stepTurn (.internal .timerTick) (wrapGap ticks) = .next (wrapGap (ticks + 1)) := by
  have hexec : exec .timerTick (wrapGap ticks) =
      .next (State.emit { wrapGap ticks with timer := (wrapGap ticks).timer + 1 } .tick) :=
    guarded_enabled (s := wrapGap ticks) (g := (wrapGap ticks).ready = true) ⟨rfl, rfl⟩ rfl
  have htimer : BitVec.ofNat 32 ticks + 1 = BitVec.ofNat 32 (ticks + 1) := (BitVec.ofNat_add ticks 1).symm
  have htrace : ([.disable, .disable] ++ List.replicate ticks .tick) ++ [.tick] =
      [.disable, .disable] ++ List.replicate (ticks + 1) WireEvent.tick := by
    rw [List.append_assoc, List.replicate_succ']
  refine (stepTurn_internal .timerTick (wrapGap_resolves ticks)).trans (hexec.trans ?_)
  rw [wrapGap, wrapGap, ← htimer, ← htrace]
  rfl

theorem wrapStart_isStart : wrapStart.isStart :=
  ⟨rfl, rfl, rfl, rfl, rfl, rfl, rfl, rfl, rfl, rfl, rfl, rfl, rfl, rfl, rfl, by decide, reset_buf_wf, nofun⟩

theorem wrap_isRun : IsRun wrapState wrapTurn where
  start := wrapStart_isStart
  moves
    | 0 | 1 | 2 | 3 | 4 | 5 => rfl
    | ticks + 6 => wrapGap_tick ticks

/-- Where the counter has just wrapped, no step but the timer's is enabled in the gap wait. -/
theorem wrapGap_enables {ticks : Nat} {i : Instr} (hwrapped : (BitVec.ofNat 32 ticks).toNat < Config.tResetUs)
    (he : (wrapGap ticks).enables i = true) : i.agent = .timer := by
  have hg := guardHolds_of_enables he
  cases i with
  | timerTick => rfl
  | fgGapwait =>
    have helapsed : (wrapGap ticks).gapElapsed := of_decide_eq_true hg
    exact absurd hwrapped (Nat.not_lt.2 helapsed)
  | init | update | fgCheck | fgDrain | fgPrepare | fgEncode | fgArm | fgReturn | dmaSend | dmaComplete | irqCompletion =>
    cases hg

/-- After `2^32 * k` ticks the counter is back at 0. -/
theorem toNat_ofNat_wraps (k : Nat) : (BitVec.ofNat 32 (2 ^ 32 * k)).toNat < Config.tResetUs := by
  rw [BitVec.toNat_ofNat, Nat.mul_mod_right]
  decide

/-- The timer takes a step at every moment of the gap wait. -/
theorem wrap_timer_takesStep (ticks : Nat) : takesStep wrapState wrapTurn .timer (ticks + 6) :=
  ⟨rfl, .timerTick, rfl, State.live.enables_internal ⟨rfl, rfl⟩ nofun rfl⟩

/-- No agent but the timer has a step that stays enabled: the counter wraps again and again (R131). -/
theorem wrap_isFair : IsFair wrapState wrapTurn := by
  intro a k henabled
  obtain ⟨i, rfl, he⟩ := henabled (2 ^ 32 * k + 6) (by omega)
  rw [wrapGap_enables (toNat_ofNat_wraps k) he]
  exact ⟨k + 6, by omega, wrap_timer_takesStep k⟩

theorem wrap_live : ∀ k, (wrapState k).live
  | 0 | 1 | 2 | 3 | 4 | 5 => ⟨rfl, rfl⟩
  | _ + 6 => ⟨rfl, rfl⟩

/-- Before the call the program is not at its end, and in the call the phase is not NOCALL. -/
theorem wrap_not_final (k : Nat) : ¬ (wrapState k).final := by
  rintro ⟨-, -, ⟨prog, hprog, hhpc⟩, hp, -⟩
  match k with
  | 0 | 1 =>
    obtain rfl : wrapProgram = prog := Except.ok.inj hprog
    cases hhpc
  | 2 | 3 | 4 | 5 => cases hp
  | _ + 6 => cases hp

/-- Settles O59: the run above waits for ever in the gap, whose end is never enabled for ever. -/
theorem wrapAdmitsAFairRunThatNeverEnds : Obligations.WrapAdmitsAFairRunThatNeverEnds :=
  ⟨wrapState, wrapTurn, wrap_isRun, wrap_isFair, fun k => ⟨wrap_live k, wrap_not_final k⟩⟩

end Sys2Proof.Machine
end
